-- ==== Sys2Proof/Word.lean ====
section
/-! DEFINITION. The word types of the CHIP-8 core (spec/00_scope.md R7 to R9). All values are unsigned. -/

namespace Sys2Proof

/-- One byte: a general register, a timer, a memory byte (R7). -/
abbrev Byte := BitVec 8

/-- A 16-bit value: an instruction word, I, PC, a stack entry (R7). -/
abbrev Word := BitVec 16

/-- A 12-bit immediate address NNN (spec/30_encoding.md R91). -/
abbrev Addr := BitVec 12

/-- A general register number 0x0..0xF, the value of an X or Y nibble (spec/10_state.md R21). -/
abbrev Reg := Fin 16

/-- VF, the register that is also the flag output (spec/10_state.md R22). -/
abbrev VF : Reg := 15

end Sys2Proof
end

