-- ==== Sys2Proof/Syntax.lean ====
section
/-! DEFINITION. The 34 instructions of spec/30_encoding.md R94, in the table's order: one constructor for each row of
spec/opcode_table.json. Operands carry their range in their type: a register number X or Y is a `Reg`, NN a `Byte`, NNN an
`Addr`, and the row count N of DXYN a number 0..15 (R91). -/

namespace Sys2Proof

inductive Instr where
  /-- 00E0, CLS: clear the display. -/
  | cls
  /-- 00EE, RET: return from subroutine. -/
  | ret
  /-- 1NNN, JP nnn: jump. -/
  | jp (nnn : Addr)
  /-- 2NNN, CALL nnn: call subroutine. -/
  | call (nnn : Addr)
  /-- 3XNN, SE Vx, nn: skip if V[X] equals NN. -/
  | seImm (x : Reg) (nn : Byte)
  /-- 4XNN, SNE Vx, nn: skip if V[X] differs from NN. -/
  | sneImm (x : Reg) (nn : Byte)
  /-- 5XY0, SE Vx, Vy: skip if V[X] equals V[Y]. -/
  | seReg (x y : Reg)
  /-- 6XNN, LD Vx, nn: load immediate. -/
  | ldImm (x : Reg) (nn : Byte)
  /-- 7XNN, ADD Vx, nn: add immediate, no carry. -/
  | addImm (x : Reg) (nn : Byte)
  /-- 8XY0, LD Vx, Vy: register copy. -/
  | ldReg (x y : Reg)
  /-- 8XY1, OR Vx, Vy. -/
  | orReg (x y : Reg)
  /-- 8XY2, AND Vx, Vy. -/
  | andReg (x y : Reg)
  /-- 8XY3, XOR Vx, Vy. -/
  | xorReg (x y : Reg)
  /-- 8XY4, ADD Vx, Vy: add with carry out. -/
  | addReg (x y : Reg)
  /-- 8XY5, SUB Vx, Vy: subtract V[Y] from V[X]. -/
  | subReg (x y : Reg)
  /-- 8XY6, SHR Vx, Vy: shift right by 1. -/
  | shr (x y : Reg)
  /-- 8XY7, SUBN Vx, Vy: subtract V[X] from V[Y]. -/
  | subnReg (x y : Reg)
  /-- 8XYE, SHL Vx, Vy: shift left by 1. -/
  | shl (x y : Reg)
  /-- 9XY0, SNE Vx, Vy: skip if V[X] differs from V[Y]. -/
  | sneReg (x y : Reg)
  /-- ANNN, LD I, nnn: load index. -/
  | ldI (nnn : Addr)
  /-- BNNN, JP V0, nnn: jump to V0 plus NNN. -/
  | jpV0 (nnn : Addr)
  /-- CXNN, RND Vx, nn: random byte masked. -/
  | rnd (x : Reg) (nn : Byte)
  /-- DXYN, DRW Vx, Vy, n: draw sprite. -/
  | drw (x y : Reg) (n : Fin 16)
  /-- EX9E, SKP Vx: skip if key V[X] is pressed. -/
  | skp (x : Reg)
  /-- EXA1, SKNP Vx: skip if key V[X] is not pressed. -/
  | sknp (x : Reg)
  /-- FX07, LD Vx, DT: read the delay timer. -/
  | ldVxDt (x : Reg)
  /-- FX0A, LD Vx, K: wait for a key. -/
  | ldKey (x : Reg)
  /-- FX15, LD DT, Vx: set the delay timer. -/
  | ldDtVx (x : Reg)
  /-- FX18, LD ST, Vx: set the sound timer. -/
  | ldStVx (x : Reg)
  /-- FX1E, ADD I, Vx: add register to index. -/
  | addI (x : Reg)
  /-- FX29, LD F, Vx: point I at the font glyph. -/
  | ldFont (x : Reg)
  /-- FX33, LD B, Vx: store BCD. -/
  | ldBcd (x : Reg)
  /-- FX55, LD [I], Vx: store V0..V[X]. -/
  | storeRegs (x : Reg)
  /-- FX65, LD Vx, [I]: load V0..V[X]. -/
  | loadRegs (x : Reg)
  deriving DecidableEq, Repr

end Sys2Proof
end

