-- ==== Sys2Proof/Decode.lean ====
section
/-! DEFINITION. The decoder and the encoder (spec/30_encoding.md). The decoder is the table of R94, read row by row: a word
`w` selects a row iff `w AND mask = match`. It depends on the word alone (R96). A word that selects no row is the unknown
variant, which carries the word (R97); it is rejected by that name and executed by `Machine.execUnknown`. -/

namespace Sys2Proof

/-- The result of decoding a word: one of the 34 instructions, or the unknown variant of R97. -/
inductive Decoded where
  | instr (i : Instr)
  | unknown (w : Word)
  deriving DecidableEq, Repr

/-- The X field, w[11:8] (R91). -/
def fieldX (w : Word) : Reg := (w.extractLsb' 8 4).toFin

/-- The Y field, w[7:4] (R91). -/
def fieldY (w : Word) : Reg := (w.extractLsb' 4 4).toFin

/-- The N field, w[3:0], a row count (R91). -/
def fieldN (w : Word) : Fin 16 := (w.extractLsb' 0 4).toFin

/-- The NN field, w[7:0] (R91). -/
def fieldNN (w : Word) : Byte := w.extractLsb' 0 8

/-- The NNN field, w[11:0] (R91). -/
def fieldNNN (w : Word) : Addr := w.extractLsb' 0 12

/-- One row of the opcode map of R94: its pattern's name, its match value and mask, and the instruction a word that
selects it stands for. -/
structure Row where
  pattern : String
  mtch : Word
  mask : Word
  build : Word → Instr

/-- "a word w selects the row iff w AND mask = match" (R94). -/
def Row.selects (r : Row) (w : Word) : Bool := w &&& r.mask == r.mtch

/-- The rows of the formats `fixed` and `NNN` (R92). -/
def addressRows : List Row :=
  [⟨"00E0", 0x00E0, 0xFFFF, fun _ => .cls⟩,
   ⟨"00EE", 0x00EE, 0xFFFF, fun _ => .ret⟩,
   ⟨"1NNN", 0x1000, 0xF000, fun w => .jp (fieldNNN w)⟩,
   ⟨"2NNN", 0x2000, 0xF000, fun w => .call (fieldNNN w)⟩,
   ⟨"ANNN", 0xA000, 0xF000, fun w => .ldI (fieldNNN w)⟩,
   ⟨"BNNN", 0xB000, 0xF000, fun w => .jpV0 (fieldNNN w)⟩]

/-- The rows of the format `XNN`, and of `XYN` (R92). -/
def immediateRows : List Row :=
  [⟨"3XNN", 0x3000, 0xF000, fun w => .seImm (fieldX w) (fieldNN w)⟩,
   ⟨"4XNN", 0x4000, 0xF000, fun w => .sneImm (fieldX w) (fieldNN w)⟩,
   ⟨"6XNN", 0x6000, 0xF000, fun w => .ldImm (fieldX w) (fieldNN w)⟩,
   ⟨"7XNN", 0x7000, 0xF000, fun w => .addImm (fieldX w) (fieldNN w)⟩,
   ⟨"CXNN", 0xC000, 0xF000, fun w => .rnd (fieldX w) (fieldNN w)⟩,
   ⟨"DXYN", 0xD000, 0xF000, fun w => .drw (fieldX w) (fieldY w) (fieldN w)⟩]

/-- The rows of the format `XYs` (R92). -/
def registerRows : List Row :=
  [⟨"5XY0", 0x5000, 0xF00F, fun w => .seReg (fieldX w) (fieldY w)⟩,
   ⟨"8XY0", 0x8000, 0xF00F, fun w => .ldReg (fieldX w) (fieldY w)⟩,
   ⟨"8XY1", 0x8001, 0xF00F, fun w => .orReg (fieldX w) (fieldY w)⟩,
   ⟨"8XY2", 0x8002, 0xF00F, fun w => .andReg (fieldX w) (fieldY w)⟩,
   ⟨"8XY3", 0x8003, 0xF00F, fun w => .xorReg (fieldX w) (fieldY w)⟩,
   ⟨"8XY4", 0x8004, 0xF00F, fun w => .addReg (fieldX w) (fieldY w)⟩,
   ⟨"8XY5", 0x8005, 0xF00F, fun w => .subReg (fieldX w) (fieldY w)⟩,
   ⟨"8XY6", 0x8006, 0xF00F, fun w => .shr (fieldX w) (fieldY w)⟩,
   ⟨"8XY7", 0x8007, 0xF00F, fun w => .subnReg (fieldX w) (fieldY w)⟩,
   ⟨"8XYE", 0x800E, 0xF00F, fun w => .shl (fieldX w) (fieldY w)⟩,
   ⟨"9XY0", 0x9000, 0xF00F, fun w => .sneReg (fieldX w) (fieldY w)⟩]

/-- The rows of the format `Xs` (R92). -/
def singleRows : List Row :=
  [⟨"EX9E", 0xE09E, 0xF0FF, fun w => .skp (fieldX w)⟩,
   ⟨"EXA1", 0xE0A1, 0xF0FF, fun w => .sknp (fieldX w)⟩,
   ⟨"FX07", 0xF007, 0xF0FF, fun w => .ldVxDt (fieldX w)⟩,
   ⟨"FX0A", 0xF00A, 0xF0FF, fun w => .ldKey (fieldX w)⟩,
   ⟨"FX15", 0xF015, 0xF0FF, fun w => .ldDtVx (fieldX w)⟩,
   ⟨"FX18", 0xF018, 0xF0FF, fun w => .ldStVx (fieldX w)⟩,
   ⟨"FX1E", 0xF01E, 0xF0FF, fun w => .addI (fieldX w)⟩,
   ⟨"FX29", 0xF029, 0xF0FF, fun w => .ldFont (fieldX w)⟩,
   ⟨"FX33", 0xF033, 0xF0FF, fun w => .ldBcd (fieldX w)⟩,
   ⟨"FX55", 0xF055, 0xF0FF, fun w => .storeRegs (fieldX w)⟩,
   ⟨"FX65", 0xF065, 0xF0FF, fun w => .loadRegs (fieldX w)⟩]

/-- The 34 rows of R94, grouped by format. No two of them match one word (R95), so their order does not matter. -/
def opcodeTable : List Row := addressRows ++ immediateRows ++ registerRows ++ singleRows

/-- The decoder: total, a function of the word alone (R96). -/
def decode (w : Word) : Decoded :=
  match opcodeTable.find? (·.selects w) with
  | some r => .instr (r.build w)
  | none => .unknown w

/-- "instructions are 2 bytes, big-endian: high byte at PC, low byte at PC+1" (spec/20_memory.md R67). -/
def wordOfBytes (hi lo : Byte) : Word := hi ++ lo

/-- Decodes the instruction at the head of a byte sequence and returns the rest; fewer than two bytes hold none (R90). -/
def decodeBytes : List Byte → Option (Decoded × List Byte)
  | hi :: lo :: rest => some (decode (wordOfBytes hi lo), rest)
  | _ => none

/-- A register number as a nibble. -/
def nibble (x : Fin 16) : BitVec 4 := BitVec.ofFin (w := 4) x

/-- Format `NNN`: op, NNN (R92). -/
def encodeNNN (op : BitVec 4) (nnn : Addr) : Word := op ++ nnn

/-- Format `XNN`: op, X, NN (R92). -/
def encodeXNN (op : BitVec 4) (x : Reg) (nn : Byte) : Word := op ++ nibble x ++ nn

/-- Formats `XYs` and `XYN`: op, X, Y and a last nibble (R92). -/
def encodeXYN (op : BitVec 4) (x y : Reg) (n : BitVec 4) : Word := op ++ nibble x ++ nibble y ++ n

/-- Format `Xs`: op, X, sub8 (R92). -/
def encodeXs (op : BitVec 4) (x : Reg) (sub8 : Byte) : Word := op ++ nibble x ++ sub8

/-- The encoder: the word of an instruction, from the layouts of R92 and the fixed nibbles of R94. -/
def encode : Instr → Word
  | .cls => 0x00E0
  | .ret => 0x00EE
  | .jp nnn => encodeNNN 0x1 nnn
  | .call nnn => encodeNNN 0x2 nnn
  | .seImm x nn => encodeXNN 0x3 x nn
  | .sneImm x nn => encodeXNN 0x4 x nn
  | .seReg x y => encodeXYN 0x5 x y 0x0
  | .ldImm x nn => encodeXNN 0x6 x nn
  | .addImm x nn => encodeXNN 0x7 x nn
  | .ldReg x y => encodeXYN 0x8 x y 0x0
  | .orReg x y => encodeXYN 0x8 x y 0x1
  | .andReg x y => encodeXYN 0x8 x y 0x2
  | .xorReg x y => encodeXYN 0x8 x y 0x3
  | .addReg x y => encodeXYN 0x8 x y 0x4
  | .subReg x y => encodeXYN 0x8 x y 0x5
  | .shr x y => encodeXYN 0x8 x y 0x6
  | .subnReg x y => encodeXYN 0x8 x y 0x7
  | .shl x y => encodeXYN 0x8 x y 0xE
  | .sneReg x y => encodeXYN 0x9 x y 0x0
  | .ldI nnn => encodeNNN 0xA nnn
  | .jpV0 nnn => encodeNNN 0xB nnn
  | .rnd x nn => encodeXNN 0xC x nn
  | .drw x y n => encodeXYN 0xD x y (nibble n)
  | .skp x => encodeXs 0xE x 0x9E
  | .sknp x => encodeXs 0xE x 0xA1
  | .ldVxDt x => encodeXs 0xF x 0x07
  | .ldKey x => encodeXs 0xF x 0x0A
  | .ldDtVx x => encodeXs 0xF x 0x15
  | .ldStVx x => encodeXs 0xF x 0x18
  | .addI x => encodeXs 0xF x 0x1E
  | .ldFont x => encodeXs 0xF x 0x29
  | .ldBcd x => encodeXs 0xF x 0x33
  | .storeRegs x => encodeXs 0xF x 0x55
  | .loadRegs x => encodeXs 0xF x 0x65

/-- The two bytes of the instruction whose bits, numbered as spec/opcode_table.json numbers them, are the low `nbits` bits
of `w`: the table's word is stored big-endian (spec/20_memory.md R67), so its bits 15..8 are the first byte. -/
def tableBytes (nbits w : Nat) : List Byte :=
  let word := BitVec.ofNat 16 (w % 2 ^ nbits)
  [word.extractLsb' 8 8, word.extractLsb' 0 8]

/-- The instruction the decoder reads from an instruction whose bits are `w`, numbered as the opcode table numbers them;
none where the decoder answers the unknown variant. -/
def decodeTableWord (nbits w : Nat) : Option Instr :=
  match decodeBytes (tableBytes nbits w) with
  | some (.instr i, _) => some i
  | _ => none

end Sys2Proof
end

