-- ==== Sys2Proof/Config.lean ====
section
/-! DEFINITION. What is fixed for this core (the parameters of spec/00_scope.md R7), the defaults of its two OPEN
parameters, and the free values of the host's unscripted inputs. -/

namespace Sys2Proof

/-- MEM_SIZE: addresses 0x000..0xFFF (R7, spec/20_memory.md R60). -/
def Config.memSize : Nat := 4096

/-- PROG_BASE, where a program image is loaded and where PC starts (R7). -/
def Config.progBase : Nat := 0x200

/-- PROG_MAX, the longest program image: 4096 - 512 bytes (R7). -/
def Config.progMax : Nat := 3584

/-- FONT_BASE (R7). -/
def Config.fontBase : Nat := 0x050

/-- FONT_GLYPH_BYTES (R7). -/
def Config.glyphBytes : Nat := 5

/-- The 80 bytes of the parameter FONT: sixteen glyphs of five rows (spec/10_state.md R36). -/
abbrev Font := Vector Byte 80

/-- The rows of the spec's default FONT for the digits 0 to 7 (spec/10_state.md R36, the table).
PRESUMED, notes/assumptions/1.md: the spec marks these bytes as general knowledge. -/
def Config.defaultGlyphsLow : List Byte :=
  [0xF0, 0x90, 0x90, 0x90, 0xF0] ++ [0x20, 0x60, 0x20, 0x20, 0x70] ++
  [0xF0, 0x10, 0xF0, 0x80, 0xF0] ++ [0xF0, 0x10, 0xF0, 0x10, 0xF0] ++
  [0x90, 0x90, 0xF0, 0x10, 0x10] ++ [0xF0, 0x80, 0xF0, 0x10, 0xF0] ++
  [0xF0, 0x80, 0xF0, 0x90, 0xF0] ++ [0xF0, 0x10, 0x20, 0x40, 0x40]

/-- The rows of the spec's default FONT for the digits 8 to F (spec/10_state.md R36, the table).
PRESUMED, notes/assumptions/1.md. -/
def Config.defaultGlyphsHigh : List Byte :=
  [0xF0, 0x90, 0xF0, 0x90, 0xF0] ++ [0xF0, 0x90, 0xF0, 0x10, 0xF0] ++
  [0xF0, 0x90, 0xF0, 0x90, 0x90] ++ [0xE0, 0x90, 0xE0, 0x90, 0xE0] ++
  [0xF0, 0x80, 0x80, 0x80, 0xF0] ++ [0xE0, 0x90, 0x90, 0x90, 0xE0] ++
  [0xF0, 0x80, 0xF0, 0x80, 0xF0] ++ [0xF0, 0x80, 0xF0, 0x80, 0x80]

/-- The spec's default for the OPEN parameter FONT. The machine is general in FONT: it stands in State
(`State.font`), and only `State.reset` uses this default (notes/assumptions/1.md). -/
def Config.defaultFont : Font :=
  ⟨(Config.defaultGlyphsLow ++ Config.defaultGlyphsHigh).toArray, by rfl⟩

/-- The value `State.reset` takes for the OPEN parameter SHIFT_QUIRK_INIT (spec/10_state.md R34, R40).
DESIGN CHOICE, notes/assumptions/2.md: the spec gives none. -/
def Config.shiftQuirkInit : Bool := false

/-- The random byte of the n-th cycle the script of host operations does not supply: a free value, no law
(spec/40_cycle.md R133, spec/42_alu.md R197; notes/assumptions/4.md). -/
opaque Config.freeByte : Nat → Byte

/-- The key snapshot of the n-th cycle the script of host operations does not supply: a free value
(spec/40_cycle.md R123; notes/assumptions/4.md). -/
opaque Config.freeKeys : Nat → Vector Bool 16

end Sys2Proof
end

