-- ==== Sys2Proof/Machine/State.lean ====
section
/-! DEFINITION. The state of the core. `Arch` is the architectural state, "exactly the following, and nothing else"
(spec/10_state.md R20). `State` adds what the model needs to be one deterministic machine: the parameter FONT, the host's
operations still to be performed, the outputs of the last one, and the S0 that spec/40_cycle.md R121 keeps while a cycle
runs. All of it is plain data. -/

namespace Sys2Proof.Machine

/-- The 64×32 display buffer, row-major `[y][x]`; true is on (R32). -/
abbrev Display := Vector (Vector Bool 64) 32

/-- Memory: (address, byte) pairs in one canonical form, `Memory.wf` of Machine/Ops.lean
(notes/assumptions/8.md). -/
abbrev Memory := List Host.Cell

/-- The causes of a fatal fault (R37, spec/60_exceptions.md R302). -/
inductive FaultCause where
  /-- NONE: no fault has occurred. -/
  | noFault
  /-- ADDRESS_FAULT: a byte address >= 0x1000. -/
  | addressFault
  /-- STACK_OVERFLOW: 2NNN with SP = 16. -/
  | stackOverflow
  /-- STACK_UNDERFLOW: 00EE with SP = 0. -/
  | stackUnderflow
  /-- KEY_INDEX_FAULT: EX9E or EXA1 with V[X] > 15. -/
  | keyIndexFault
  /-- INDEX_OVERFLOW: FX1E with I + V[X] > 0xFFFF. -/
  | indexOverflow
  deriving DecidableEq, Repr

/-- The architectural state (R20). -/
structure Arch where
  /-- V0..VF (R21). -/
  v : Vector Byte 16
  /-- I, the index register (R24). -/
  i : Word
  /-- PC (R25). -/
  pc : Word
  /-- SP, an integer in 0..16 (R27). -/
  sp : Fin 17
  /-- stack[0..15] (R28). -/
  stack : Vector Word 16
  /-- DT, the delay timer (R29). -/
  dt : Byte
  /-- ST, the sound timer (R30). -/
  st : Byte
  /-- keypad[0..15]; true is pressed (R31). -/
  keypad : Vector Bool 16
  /-- The display buffer (R32). -/
  display : Display
  /-- OPCODE, the most recently fetched word (R33). -/
  opcode : Word
  /-- QUIRK, the shift quirk (R34). -/
  quirk : Bool
  /-- The 4096-byte memory (R35). -/
  mem : Memory
  /-- Fault record: the core has halted (R37). -/
  halted : Bool
  /-- Fault record: the cause (R37). -/
  faultCause : FaultCause
  /-- Fault record: the address of the instruction that faulted (R37). -/
  faultPc : Word
  /-- Fault record: the faulting instruction's word, or NONE for a fetch fault (R37). -/
  faultWord : Option Word
  deriving DecidableEq, Repr

/-- What `load` is given: the bytes of an image, or a binary that could not be read (spec/70_reset_and_hazards.md R343,
R345). -/
inductive LoadSource where
  | image (bytes : List Byte)
  | unreadable
  deriving DecidableEq, Repr

/-- What `load` answers (spec/70_reset_and_hazards.md R343 to R345). -/
inductive LoadResult where
  | loaded
  | oversize
  | ioError
  deriving DecidableEq, Repr

/-- The five host operations, and no others (spec/40_cycle.md R120). -/
inductive HostOp where
  | reset
  | load (source : LoadSource)
  | setQuirk (b : Bool)
  | cycle (keys : Vector Bool 16) (rnd : Byte)
  | read
  deriving DecidableEq, Repr

/-- What the last host operation gave the host beside the state it may read: the event `unimplemented` of a cycle
(spec/40_cycle.md R128 (c)) and the result of a load (notes/assumptions/7.md). -/
structure Outputs where
  unimplemented : Option Word
  loadResult : Option LoadResult
  deriving DecidableEq, Repr

/-- No event and no result. -/
def Outputs.quiet : Outputs := ⟨none, none⟩

/-- What the cycle driver holds while a cycle runs: S0, "the whole state", kept for the rollback of
spec/40_cycle.md R126, and the cycle's random byte (R133). -/
structure CycleContext where
  start : Arch
  rnd : Byte
  deriving DecidableEq, Repr

/-- The machine: the architectural state and the model's own fields. -/
structure State extends Arch where
  /-- The parameter FONT: never written by a step (spec/10_state.md R36; notes/assumptions/1.md). -/
  font : Font
  /-- The host operations not yet performed, oldest first (spec/40_cycle.md R131; notes/assumptions/3.md). -/
  pending : List HostOp
  /-- How many times a cycle's inputs have been drawn as free values (notes/assumptions/4.md). -/
  draws : Nat
  /-- The running cycle's S0 and random byte; none between operations (notes/assumptions/6.md). -/
  inCycle : Option CycleContext
  /-- The outputs of the last operation (notes/assumptions/7.md). -/
  out : Outputs
  deriving DecidableEq, Repr

/-- The reasons a step can stop with a fault: there is none. Every fatal fault of spec/60_exceptions.md R302 has an effect
the spec states (R303), so it is a next state, with `halted` set (notes/assumptions/5.md). -/
inductive Fault where
  deriving DecidableEq, Repr

/-- The reasons a step can refuse. -/
inductive Refusal where
  /-- Raised by `exec` for an instruction without a meaning. Safe: no such step has a next state. No arm of this model
  raises it. -/
  | notModelled (mnemonic : String)
  deriving DecidableEq, Repr

/-- The outcome of an instruction and of a step. -/
abbrev Result := Host.Outcome State Fault Refusal

/-- The architectural state after reset (spec/10_state.md R40), for a given QUIRK: reset keeps it, and at power-on it is
SHIFT_QUIRK_INIT (spec/70_reset_and_hazards.md R340, R341). Memory lists nothing: every address holds its reset content,
FONT or 0x00. -/
def Arch.afterReset (quirk : Bool) : Arch where
  v := Vector.replicate 16 0
  i := 0
  pc := 0x0200
  sp := 0
  stack := Vector.replicate 16 0
  dt := 0
  st := 0
  keypad := Vector.replicate 16 false
  display := Vector.replicate 32 (Vector.replicate 64 false)
  opcode := 0
  quirk := quirk
  mem := []
  halted := false
  faultCause := .noFault
  faultPc := 0
  faultWord := none

/-- The machine at power-on, general in the two OPEN parameters FONT and SHIFT_QUIRK_INIT
(spec/70_reset_and_hazards.md R341). -/
def State.powerOn (font : Font) (shiftQuirkInit : Bool) : State where
  toArch := Arch.afterReset shiftQuirkInit
  font := font
  pending := []
  draws := 0
  inCycle := none
  out := .quiet

/-- The machine right after reset, with the spec's default FONT (PRESUMED, notes/assumptions/1.md) and QUIRK false
(DESIGN CHOICE, notes/assumptions/2.md). -/
def State.reset : State := State.powerOn Config.defaultFont Config.shiftQuirkInit

end Sys2Proof.Machine
end

