-- ==== Sys2Proof/Machine/Flags.lean ====
section
/-! DEFINITION. The flag values VF takes (spec/42_alu.md R198). Each is computed from the operand values read before any
write (spec/10_state.md R23). DXYN's flag, the collision, is computed by the draw itself (Machine/Screen.lean). -/

namespace Sys2Proof.Machine

/-- 8XY4: 1 iff x + y > 255 (R187). -/
def carryOut (x y : Byte) : Bool := decide (x.toNat + y.toNat > 255)

/-- The no-borrow flag of a subtraction a - b: 1 iff a >= b (R189). -/
def noBorrow (a b : Byte) : Bool := decide (a.toNat ≥ b.toNat)

/-- 8XY6: the bit shifted out, bit 0 of the source (R191). -/
def shiftedOutRight (src : Byte) : Bool := src.getLsbD 0

/-- 8XYE: the bit shifted out, bit 7 of the source (R191). -/
def shiftedOutLeft (src : Byte) : Bool := src.getLsbD 7

end Sys2Proof.Machine
end

