-- ==== Sys2Proof/Machine/Ops.lean ====
section
/-! DEFINITION. The named operations over memory, registers, PC and the stack, and the taking of a fatal fault. Every
instruction reaches the state through these. -/

namespace Sys2Proof.Machine

/-! ### Memory (spec/20_memory.md) -/

/-- What an address that memory does not list reads as: its reset content, FONT at 0x050..0x09F and 0x00 elsewhere
(spec/10_state.md R36, R40; spec/70_reset_and_hazards.md R340). -/
def Memory.unlisted (font : Font) (a : Nat) : Byte :=
  if h : 0x050 ≤ a ∧ a < 0x0A0 then font[a - 0x050]'(by omega) else 0

/-- The byte listed for an address. -/
def Memory.lookup : Memory → Nat → Option Byte
  | [], _ => none
  | (b, u) :: rest, a => if b = a then some u else Memory.lookup rest a

/-- The byte an address holds. -/
def Memory.read (font : Font) (m : Memory) (a : Nat) : Byte :=
  match Memory.lookup m a with
  | some v => v
  | none => Memory.unlisted font a

/-- Lists a byte at an address, in address order. -/
def Memory.put : Memory → Nat → Byte → Memory
  | [], a, v => [(a, v)]
  | (b, u) :: rest, a, v =>
    if a < b then (a, v) :: (b, u) :: rest
    else if a = b then (a, v) :: rest
    else (b, u) :: Memory.put rest a v

/-- Takes an address off the list. -/
def Memory.erase : Memory → Nat → Memory
  | [], _ => []
  | (b, u) :: rest, a => if b = a then rest else (b, u) :: Memory.erase rest a

/-- Stores a byte. Storing what an unlisted address reads as takes the address off the list, so that equal memories are
equal lists (notes/assumptions/8.md). -/
def Memory.write (font : Font) (m : Memory) (a : Nat) (v : Byte) : Memory :=
  if v = Memory.unlisted font a then Memory.erase m a else Memory.put m a v

/-- Stores bytes at a, a + 1, ... in rising order. -/
def Memory.copyIn (font : Font) (m : Memory) (a : Nat) : List Byte → Memory
  | [] => m
  | b :: bs => Memory.copyIn font (Memory.write font m a b) (a + 1) bs

/-- The canonical form, from an address on: addresses strictly rising and below 0x1000, and no entry equal to what an
unlisted address reads as. -/
def Memory.wfFrom (font : Font) : Nat → Memory → Bool
  | _, [] => true
  | lo, (a, v) :: rest =>
    decide (lo ≤ a) && decide (a < Config.memSize) && decide (v ≠ Memory.unlisted font a)
      && Memory.wfFrom font (a + 1) rest

/-- The canonical form of memory. -/
def Memory.wf (font : Font) (m : Memory) : Bool := Memory.wfFrom font 0 m

/-- The byte at an address of the 4096-byte array. -/
def State.byteAt (s : State) (a : Nat) : Byte := Memory.read s.font s.mem a

/-- `MemRead(a, 1)`; none where it raises ADDRESS_FAULT: "a memory access at an address a >= 0x1000 does not take place"
(R65). The address is an unbounded natural number (R66). -/
def State.memRead (s : State) (a : Nat) : Option Byte :=
  if a < Config.memSize then some (s.byteAt a) else none

/-- Writes memory (R35). -/
def State.setMem (s : State) (m : Memory) : State := { s with mem := m }

/-- `MemWrite(a, 1, v)`; none where it raises ADDRESS_FAULT (R65). -/
def State.memWrite (s : State) (a : Nat) (v : Byte) : Option State :=
  if a < Config.memSize then some (s.setMem (Memory.write s.font s.mem a v)) else none

/-- `n` one-byte reads at a, a + 1, ... in rising order (R64); none as soon as one of them faults. -/
def State.memReads (s : State) (a : Nat) : Nat → Option (List Byte)
  | 0 => some []
  | n + 1 =>
    match s.memRead a with
    | none => none
    | some b =>
      match s.memReads (a + 1) n with
      | none => none
      | some bs => some (b :: bs)

/-- One-byte writes at a, a + 1, ... in rising order (R64); none as soon as one of them faults. -/
def State.memWrites (s : State) (a : Nat) : List Byte → Option State
  | [] => some s
  | b :: bs =>
    match s.memWrite a b with
    | none => none
    | some t => t.memWrites (a + 1) bs

/-! ### Registers (spec/10_state.md) -/

/-- `V[r]`: "every Vi reads the value last written to it" (R21). -/
def State.reg (s : State) (r : Reg) : Byte := s.v[r]

/-- `V[r] <- b`. -/
def State.setReg (s : State) (r : Reg) (b : Byte) : State := { s with v := s.v.set r b }

/-- The flag write of VF: `V[0xF] <- (if c then 1 else 0)` (R22). An instruction performs it last (R23). -/
def State.setFlag (s : State) (c : Bool) : State := s.setReg VF (if c then 1 else 0)

/-- `V[k], V[k+1], ... <- bytes`, in rising order. -/
def State.setRegs (s : State) (k : Nat) : List Byte → State
  | [] => s
  | b :: bs => (if h : k < 16 then s.setReg ⟨k, h⟩ b else s).setRegs (k + 1) bs

/-- `I <- a` (R24). -/
def State.setIndex (s : State) (a : Word) : State := { s with i := a }

/-- `DT <- b` (R29). -/
def State.setDelay (s : State) (b : Byte) : State := { s with dt := b }

/-- `ST <- b` (R30). -/
def State.setSound (s : State) (b : Byte) : State := { s with st := b }

/-- Writes the display buffer (R32). -/
def State.setDisplay (s : State) (d : Display) : State := { s with display := d }

/-! ### PC and the call stack -/

/-- `PC <- a`; PC holds values modulo 2^16 (R26). -/
def State.setPc (s : State) (a : Word) : State := { s with pc := a }

/-- A skip: `PC <- (PC + 2) mod 2^16` on top of the fetch advance, if the condition holds (spec/41_flow.md R159). -/
def State.skipIf (s : State) (c : Bool) : State := if c then s.setPc (s.pc + 2) else s

/-- "Call pushes at pointer then increments" (R27); none when SP = 16, where 2NNN raises STACK_OVERFLOW. -/
def State.push (s : State) (a : Word) : Option State :=
  if h : s.sp.val < 16 then
    some { s with stack := s.stack.set s.sp.val a, sp := ⟨s.sp.val + 1, by omega⟩ }
  else none

/-- "return decrements then pops" (R27); none when SP = 0, where 00EE raises STACK_UNDERFLOW. The entry read keeps its
value (R28). -/
def State.pop (s : State) : Option (Word × State) :=
  if h : 0 < s.sp.val then
    some (s.stack[s.sp.val - 1]'(by omega), { s with sp := ⟨s.sp.val - 1, by omega⟩ })
  else none

/-! ### The cycle's inputs -/

/-- The random byte of the running cycle (spec/40_cycle.md R133). Outside a cycle, where no instruction executes, it is the
free value at the draw counter, which stays (DESIGN CHOICE, notes/assumptions/6.md). -/
def State.drawByte (s : State) : Byte :=
  match s.inCycle with
  | some c => c.rnd
  | none => Config.freeByte s.draws

/-! ### Fatal faults (spec/60_exceptions.md) -/

/-- The state to which a fault of the running cycle goes back: S0 (spec/40_cycle.md R126). Outside a cycle it is the state
itself (notes/assumptions/6.md). -/
def State.startArch (s : State) : Arch :=
  match s.inCycle with
  | some c => c.start
  | none => s.toArch

/-- Taking a fatal fault (R303): the state of the start of the cycle comes back, `halted` is set, and the record takes the
cause, the address of the faulting instruction (PC of S0) and its word, or NONE for a fetch fault. Nothing else changes,
and there is no handler (R308). -/
def State.takeFault (s : State) (cause : FaultCause) (word : Option Word) : State :=
  { s with
    toArch := { s.startArch with
      halted := true, faultCause := cause, faultPc := s.startArch.pc, faultWord := word } }

/-- `raise <Fault>` in an instruction (spec/00_scope.md R12): the word of the record is the word this cycle fetched, which
OPCODE holds (spec/40_cycle.md R121, R124). -/
def State.raise (s : State) (cause : FaultCause) : Result := .next (s.takeFault cause (some s.opcode))

/-- The return from a fatal fault is a reset and nothing else: "Only `reset` clears `halted` and the fault record" (R304).
It puts every element to its reset value but QUIRK, which it keeps (spec/70_reset_and_hazards.md R340). FONT, the script of
host operations and the count of draws are not the core's (notes/assumptions/3.md). -/
def State.resetCore (s : State) : State :=
  { s with toArch := Arch.afterReset s.quirk, inCycle := none, out := .quiet }

/-- The code of a cause in `fault_cause` (R302). -/
def FaultCause.code : FaultCause → Nat
  | .noFault => 0
  | .addressFault => 1
  | .stackOverflow => 2
  | .stackUnderflow => 3
  | .keyIndexFault => 4
  | .indexOverflow => 5

end Sys2Proof.Machine
end

