-- ==== Sys2Proof/Machine/Operands.lean ====
section
/-! DEFINITION. The operand forms of the instructions (spec/30_encoding.md R93): registers V[X] and V[Y] (`State.reg`), the
constants NN and NNN, the range V0..VX, the shift source, the I-relative address, and the BCD digits. -/

namespace Sys2Proof.Machine

/-- `zext_16(NNN)`: "No field is scaled, shifted or sign-extended" (spec/30_encoding.md R91). -/
def zext16 (nnn : Addr) : Word := nnn.setWidth 16

/-- The target of BNNN: `zext_16(V[0]) + zext_16(NNN)`, not masked to 12 bits (spec/41_flow.md R158). -/
def State.offsetTarget (s : State) (nnn : Addr) : Word := (s.reg 0).setWidth 16 + zext16 nnn

/-- The shift source: V[X] with QUIRK false, V[Y] with QUIRK true (spec/42_alu.md R190). -/
def State.shiftSource (s : State) (x y : Reg) : Byte := if s.quirk then s.reg y else s.reg x

/-- The base of the only data addressing mode: the k-th byte of an access is at I + k, computed exactly
(spec/43_memory_ops.md R226). -/
def State.base (s : State) : Nat := s.i.toNat

/-- The values of V0..VX inclusive, in rising order (spec/43_memory_ops.md R224). -/
def State.regsUpTo (s : State) (x : Reg) : List Byte := s.v.toList.take (x.val + 1)

/-- The three decimal digits of a byte, hundreds first (spec/43_memory_ops.md R223). -/
def bcdDigits (x : Byte) : List Byte :=
  [BitVec.ofNat 8 (x.toNat / 100), BitVec.ofNat 8 (x.toNat / 10 % 10), BitVec.ofNat 8 (x.toNat % 10)]

/-- The font glyph address `0x050 + 5 * x`, applied as written to every x (spec/43_memory_ops.md R222). -/
def glyphAddress (x : Byte) : Word := BitVec.ofNat 16 (Config.fontBase + Config.glyphBytes * x.toNat)

/-- The lowest pressed key of a snapshot: "priority order 0..15" (spec/45_timers_keys.md R273). -/
def lowestKey (keypad : Vector Bool 16) : Option (Fin 16) := (List.finRange 16).find? (fun k => keypad[k])

end Sys2Proof.Machine
end

