-- ==== Sys2Proof/Machine/Alu.lean ====
section
/-! DEFINITION. Register loads, arithmetic, logic, shifts, random (spec/42_alu.md). Arithmetic is unsigned and wraps modulo
256 (R180). An instruction with a flag writes V[X] and then VF, both from the operands read first (R23, R191). -/

namespace Sys2Proof.Machine

/-- 6XNN (R181): V[X] <- NN. -/
def execLdImm (x : Reg) (nn : Byte) (s : State) : Result := .next (s.setReg x nn)

/-- 7XNN (R182): V[X] <- (x + NN) mod 256; no flag. -/
def execAddImm (x : Reg) (nn : Byte) (s : State) : Result := .next (s.setReg x (s.reg x + nn))

/-- 8XY0 (R183): V[X] <- y. -/
def execLdReg (x y : Reg) (s : State) : Result := .next (s.setReg x (s.reg y))

/-- 8XY1 (R184): V[X] <- x OR y; no flag. -/
def execOrReg (x y : Reg) (s : State) : Result := .next (s.setReg x (s.reg x ||| s.reg y))

/-- 8XY2 (R185): V[X] <- x AND y; no flag. -/
def execAndReg (x y : Reg) (s : State) : Result := .next (s.setReg x (s.reg x &&& s.reg y))

/-- 8XY3 (R186): V[X] <- x XOR y; no flag. -/
def execXorReg (x y : Reg) (s : State) : Result := .next (s.setReg x (s.reg x ^^^ s.reg y))

/-- 8XY4 (R187): V[X] <- (x + y) mod 256, VF <- carry. -/
def execAddReg (x y : Reg) (s : State) : Result :=
  .next ((s.setReg x (s.reg x + s.reg y)).setFlag (carryOut (s.reg x) (s.reg y)))

/-- 8XY5 (R188): V[X] <- (x - y) mod 256, VF <- no borrow. -/
def execSubReg (x y : Reg) (s : State) : Result :=
  .next ((s.setReg x (s.reg x - s.reg y)).setFlag (noBorrow (s.reg x) (s.reg y)))

/-- 8XY6 (R192): V[X] <- src >> 1, VF <- src[0]. -/
def execShr (x y : Reg) (s : State) : Result :=
  .next ((s.setReg x (s.shiftSource x y >>> 1)).setFlag (shiftedOutRight (s.shiftSource x y)))

/-- 8XY7 (R193): V[X] <- (y - x) mod 256, VF <- no borrow. -/
def execSubnReg (x y : Reg) (s : State) : Result :=
  .next ((s.setReg x (s.reg y - s.reg x)).setFlag (noBorrow (s.reg y) (s.reg x)))

/-- 8XYE (R194): V[X] <- (src * 2) mod 256, VF <- src[7]. -/
def execShl (x y : Reg) (s : State) : Result :=
  .next ((s.setReg x (s.shiftSource x y <<< 1)).setFlag (shiftedOutLeft (s.shiftSource x y)))

/-- CXNN (R196): V[X] <- rnd AND NN. -/
def execRnd (x : Reg) (nn : Byte) (s : State) : Result := .next (s.setReg x (s.drawByte &&& nn))

end Sys2Proof.Machine
end

