-- ==== Sys2Proof/Machine/Flow.lean ====
section
/-! DEFINITION. Control flow (spec/41_flow.md). Every meaning is the Execute step of spec/40_cycle.md R121: PC already holds
the address of the instruction plus 2. -/

namespace Sys2Proof.Machine

/-- 00EE (R151): SP <- SP - 1, PC <- stack[SP]; STACK_UNDERFLOW when SP = 0. -/
def execRet (s : State) : Result :=
  match s.pop with
  | none => s.raise .stackUnderflow
  | some (a, t) => .next (t.setPc a)

/-- 1NNN (R152): PC <- NNN. -/
def execJp (nnn : Addr) (s : State) : Result := .next (s.setPc (zext16 nnn))

/-- 2NNN (R153): stack[SP] <- PC, SP <- SP + 1, PC <- NNN; STACK_OVERFLOW when SP = 16. -/
def execCall (nnn : Addr) (s : State) : Result :=
  match s.push s.pc with
  | none => s.raise .stackOverflow
  | some t => .next (t.setPc (zext16 nnn))

/-- 3XNN (R154): skip if V[X] = NN. -/
def execSeImm (x : Reg) (nn : Byte) (s : State) : Result := .next (s.skipIf (s.reg x == nn))

/-- 4XNN (R155): skip if V[X] != NN. -/
def execSneImm (x : Reg) (nn : Byte) (s : State) : Result := .next (s.skipIf (s.reg x != nn))

/-- 5XY0 (R156): skip if V[X] = V[Y]. -/
def execSeReg (x y : Reg) (s : State) : Result := .next (s.skipIf (s.reg x == s.reg y))

/-- 9XY0 (R157): skip if V[X] != V[Y]. -/
def execSneReg (x y : Reg) (s : State) : Result := .next (s.skipIf (s.reg x != s.reg y))

/-- BNNN (R158): PC <- V0 + NNN. -/
def execJpV0 (nnn : Addr) (s : State) : Result := .next (s.setPc (s.offsetTarget nnn))

end Sys2Proof.Machine
end

