-- ==== Sys2Proof/Machine/Index.lean ====
section
/-! DEFINITION. Index register and memory instructions (spec/43_memory_ops.md). FX33, FX55 and FX65 leave I unchanged
(R226). -/

namespace Sys2Proof.Machine

/-- ANNN (R220): I <- NNN. -/
def execLdI (nnn : Addr) (s : State) : Result := .next (s.setIndex (zext16 nnn))

/-- FX1E (R221): I <- I + x, exact; INDEX_OVERFLOW when the sum is above 0xFFFF. VF is not written. -/
def execAddI (x : Reg) (s : State) : Result :=
  if s.i.toNat + (s.reg x).toNat > 0xFFFF then s.raise .indexOverflow
  else .next (s.setIndex (BitVec.ofNat 16 (s.i.toNat + (s.reg x).toNat)))

/-- FX29 (R222): I <- 0x050 + 5 * x. -/
def execLdFont (x : Reg) (s : State) : Result := .next (s.setIndex (glyphAddress (s.reg x)))

/-- FX33 (R223): memory[I], memory[I+1], memory[I+2] <- the digits of x; ADDRESS_FAULT if I + 2 >= 0x1000. -/
def execLdBcd (x : Reg) (s : State) : Result :=
  match s.memWrites s.base (bcdDigits (s.reg x)) with
  | none => s.raise .addressFault
  | some t => .next t

/-- FX55 (R224): memory[I..I+X] <- V0..VX; ADDRESS_FAULT if I + X >= 0x1000. -/
def execStoreRegs (x : Reg) (s : State) : Result :=
  match s.memWrites s.base (s.regsUpTo x) with
  | none => s.raise .addressFault
  | some t => .next t

/-- FX65 (R225): V0..VX <- memory[I..I+X]; ADDRESS_FAULT if I + X >= 0x1000. -/
def execLoadRegs (x : Reg) (s : State) : Result :=
  match s.memReads s.base (x.val + 1) with
  | none => s.raise .addressFault
  | some bytes => .next (s.setRegs 0 bytes)

end Sys2Proof.Machine
end

