-- ==== Sys2Proof/Machine/Input.lean ====
section
/-! DEFINITION. Keypad and timer instructions (spec/45_timers_keys.md). The keypad is the snapshot of the same cycle
(spec/40_cycle.md R123); the timers are decremented after Execute in the same cycle (R125). -/

namespace Sys2Proof.Machine

/-- `keypad[x]`; none when x > 15, where EX9E and EXA1 raise KEY_INDEX_FAULT (R270, R271). -/
def State.key (s : State) (x : Byte) : Option Bool :=
  if h : x.toNat < 16 then some s.keypad[x.toNat] else none

/-- EX9E (R270): skip if key V[X] is pressed. -/
def execSkp (x : Reg) (s : State) : Result :=
  match s.key (s.reg x) with
  | none => s.raise .keyIndexFault
  | some pressed => .next (s.skipIf pressed)

/-- EXA1 (R271): skip if key V[X] is not pressed. -/
def execSknp (x : Reg) (s : State) : Result :=
  match s.key (s.reg x) with
  | none => s.raise .keyIndexFault
  | some pressed => .next (s.skipIf (!pressed))

/-- FX0A (R273): V[X] <- the lowest pressed key; with none pressed, PC goes back to this instruction. -/
def execLdKey (x : Reg) (s : State) : Result :=
  match lowestKey s.keypad with
  | some k => .next (s.setReg x (BitVec.ofNat 8 k.val))
  | none => .next (s.setPc (s.pc - 2))

/-- FX07 (R272): V[X] <- DT, before this cycle's decrement. -/
def execLdVxDt (x : Reg) (s : State) : Result := .next (s.setReg x s.dt)

/-- FX15 (R274): DT <- x. -/
def execLdDtVx (x : Reg) (s : State) : Result := .next (s.setDelay (s.reg x))

/-- FX18 (R275): ST <- x. -/
def execLdStVx (x : Reg) (s : State) : Result := .next (s.setSound (s.reg x))

end Sys2Proof.Machine
end

