-- ==== Sys2Proof/Machine/Screen.lean ====
section
/-! DEFINITION. The display and its two instructions (spec/44_display.md). -/

namespace Sys2Proof.Machine

/-- `display[y][x]` (R250). -/
def Display.pixel (d : Display) (px : Fin 64) (py : Fin 32) : Bool := d[py][px]

/-- `display[y][x] <- not display[y][x]`: DXYN only inverts pixels (R250). -/
def Display.flip (d : Display) (px : Fin 64) (py : Fin 32) : Display :=
  d.set py (d[py].set px (!d[py][px]))

/-- The display with every pixel false (R251). -/
def Display.blank : Display := Vector.replicate 32 (Vector.replicate 64 false)

/-- A draw in progress: the display and whether a pixel has turned from on to off (R254). -/
structure Drawing where
  display : Display
  collided : Bool
  deriving DecidableEq, Repr

/-- Column `col` of a sprite row with byte `b`: bit 7 - col, drawn at ((x0 + col) mod 64, y mod 32); "each pixel wraps
independently" (R253, R255). -/
def drawColumn (x0 y : Nat) (b : Byte) (g : Drawing) (col : Nat) : Drawing :=
  if b.getLsbD (7 - col) then
    { display := g.display.flip (Fin.ofNat 64 (x0 + col)) (Fin.ofNat 32 y)
      collided := g.collided || g.display.pixel (Fin.ofNat 64 (x0 + col)) (Fin.ofNat 32 y) }
  else g

/-- One sprite row: columns 0..7. -/
def drawRow (x0 y : Nat) (b : Byte) (g : Drawing) : Drawing :=
  (List.range 8).foldl (drawColumn x0 y b) g

/-- The rows of a sprite, the first at y and the others below it. -/
def drawRows (x0 : Nat) : Nat → List Byte → Drawing → Drawing
  | _, [], g => g
  | y, b :: bs, g => drawRows x0 (y + 1) bs (drawRow x0 y b g)

/-- 00E0 (R251): every pixel <- false. -/
def execCls (s : State) : Result := .next (s.setDisplay Display.blank)

/-- DXYN (R252): draws the N-byte sprite at I at (V[X], V[Y]) and sets VF to the collision; the sprite bytes and the
coordinates are read before anything is written. ADDRESS_FAULT if N >= 1 and I + N - 1 >= 0x1000. -/
def execDrw (x y : Reg) (n : Fin 16) (s : State) : Result :=
  match s.memReads s.base n.val with
  | none => s.raise .addressFault
  | some sprite =>
    let g := drawRows (s.reg x).toNat (s.reg y).toNat sprite ⟨s.display, false⟩
    .next ((s.setDisplay g.display).setFlag g.collided)

end Sys2Proof.Machine
end

