-- ==== Sys2Proof/Machine/Cycle.lean ====
section
/-! DEFINITION. The cycle driver (spec/40_cycle.md R121): latch the keys, fetch, decode, execute, decrement the timers. -/

namespace Sys2Proof.Machine

/-- Continues with a state; a stop stays a stop. -/
def onNext (f : State → State) : Result → Result
  | .next s => .next (f s)
  | .fault r => .fault r
  | .refused r => .refused r

/-- The start of a cycle: S0 and the random byte are kept, the keypad snapshot is overwritten with the cycle's keys, all 16
at once (R121, R123), and this cycle has no event yet (R128). -/
def State.beginCycle (s : State) (keys : Vector Bool 16) (rnd : Byte) : State :=
  { s with keypad := keys, inCycle := some ⟨s.toArch, rnd⟩, out := .quiet }

/-- The fetch reads the bytes at PC and PC + 1, big-endian; none where it raises ADDRESS_FAULT, that is, where
PC >= 0x0FFF (R124, spec/20_memory.md R67). -/
def State.fetchWord (s : State) : Option Word :=
  match s.memRead s.pc.toNat with
  | none => none
  | some hi =>
    match s.memRead (s.pc.toNat + 1) with
    | none => none
    | some lo => some (wordOfBytes hi lo)

/-- `OPCODE <- w; PC <- (PC + 2) mod 2^16` (R121). -/
def State.advance (s : State) (w : Word) : State := { s with opcode := w, pc := s.pc + 2 }

/-- A timer's decrement: "Decrement by 1 each cycle while > 0; floor at 0." (spec/10_state.md R29). -/
def tick (t : Byte) : Byte := if t = 0 then 0 else t - 1

/-- The decrement of DT and of ST (R125). -/
def State.tickTimers (s : State) : State := { s with dt := tick s.dt, st := tick s.st }

/-- The end of a cycle: the timers are decremented if Execute completed without a fatal fault (R125, R126), and S0 is
dropped. -/
def State.endCycle (s : State) : State :=
  { (if s.halted then s else s.tickTimers) with inCycle := none }

/-- Executing the unknown variant: `signal UnimplementedOpcode(w)` and no other effect (spec/60_exceptions.md R301). -/
def execUnknown (w : Word) (s : State) : Result := .next { s with out := ⟨some w, none⟩ }

/-- `Execute(Decode(w))` (R121). -/
def execWord (w : Word) (s : State) : Result :=
  match decode w with
  | .instr i => exec i s
  | .unknown u => execUnknown u s

/-- `cycle(keys, rnd)` on a core that has not halted (R121). -/
def runCycle (keys : Vector Bool 16) (rnd : Byte) (s : State) : Result :=
  match (s.beginCycle keys rnd).fetchWord with
  | none => .next ((s.beginCycle keys rnd).takeFault .addressFault none).endCycle
  | some w => onNext State.endCycle (execWord w ((s.beginCycle keys rnd).advance w))

/-- `cycle(keys, rnd)`: a halted core changes no state at all (R122); it has no event (notes/assumptions/7.md). -/
def cycle (keys : Vector Bool 16) (rnd : Byte) (s : State) : Result :=
  if s.halted then .next { s with out := .quiet } else runCycle keys rnd s

end Sys2Proof.Machine
end

