-- ==== Sys2Proof/WellFormed.lean ====
section
/-! DEFINITION. The checks on what is written into the machine: an operand fits its field (spec/30_encoding.md R91), and a
program image fits the program region (spec/70_reset_and_hazards.md R344). The operand types of `Instr` already carry the
first check, so every `Instr` passes it (Laws/PerInstr.lean proves so, constructor by constructor): the instruction
theorems of this model need no well-formedness hypothesis. -/

namespace Sys2Proof

/-- An operand as a number, with the width in bits of the field it is encoded in (R91). -/
structure Operand where
  value : Nat
  width : Nat
  deriving DecidableEq, Repr

/-- The number fits its field. -/
def Operand.fits (o : Operand) : Bool := o.value < 2 ^ o.width

/-- The operand of an X or Y nibble. -/
def Operand.ofReg (x : Reg) : Operand := ⟨x.val, 4⟩

/-- The operand of an NN byte. -/
def Operand.ofByte (nn : Byte) : Operand := ⟨nn.toNat, 8⟩

/-- The operand of an NNN field. -/
def Operand.ofAddr (nnn : Addr) : Operand := ⟨nnn.toNat, 12⟩

/-- The operands an instruction encodes, in the order of its pattern (R92). -/
def Instr.operands : Instr → List Operand
  | .cls => []
  | .ret => []
  | .jp nnn => [.ofAddr nnn]
  | .call nnn => [.ofAddr nnn]
  | .seImm x nn => [.ofReg x, .ofByte nn]
  | .sneImm x nn => [.ofReg x, .ofByte nn]
  | .seReg x y => [.ofReg x, .ofReg y]
  | .ldImm x nn => [.ofReg x, .ofByte nn]
  | .addImm x nn => [.ofReg x, .ofByte nn]
  | .ldReg x y => [.ofReg x, .ofReg y]
  | .orReg x y => [.ofReg x, .ofReg y]
  | .andReg x y => [.ofReg x, .ofReg y]
  | .xorReg x y => [.ofReg x, .ofReg y]
  | .addReg x y => [.ofReg x, .ofReg y]
  | .subReg x y => [.ofReg x, .ofReg y]
  | .shr x y => [.ofReg x, .ofReg y]
  | .subnReg x y => [.ofReg x, .ofReg y]
  | .shl x y => [.ofReg x, .ofReg y]
  | .sneReg x y => [.ofReg x, .ofReg y]
  | .ldI nnn => [.ofAddr nnn]
  | .jpV0 nnn => [.ofAddr nnn]
  | .rnd x nn => [.ofReg x, .ofByte nn]
  | .drw x y n => [.ofReg x, .ofReg y, .ofReg n]
  | .skp x => [.ofReg x]
  | .sknp x => [.ofReg x]
  | .ldVxDt x => [.ofReg x]
  | .ldKey x => [.ofReg x]
  | .ldDtVx x => [.ofReg x]
  | .ldStVx x => [.ofReg x]
  | .addI x => [.ofReg x]
  | .ldFont x => [.ofReg x]
  | .ldBcd x => [.ofReg x]
  | .storeRegs x => [.ofReg x]
  | .loadRegs x => [.ofReg x]

/-- Every operand of the instruction fits its field. -/
def Instr.wellFormed (i : Instr) : Bool := i.operands.all Operand.fits

/-- A program image fits the program region 0x200..0xFFF: "An image longer than 3584 bytes ... is refused" (R344). -/
def imageFits (image : List Byte) : Bool := image.length ≤ Config.progMax

end Sys2Proof
end

