-- ==== Sys2Proof/Machine/HostOps.lean ====
section
/-! DEFINITION. The host operations (spec/40_cycle.md R120) and the outputs (R128). One step of the model performs one
operation; they never overlap (R131). -/

namespace Sys2Proof.Machine

/-- `load(image)`: writes mem[0x200 + i] and nothing else (R343); an image longer than 3584 bytes fails with OVERSIZE
(R344), an unreadable one with IO_ERROR (R345), and a failed load changes no state. -/
def State.performLoad (s : State) : LoadSource → State
  | .image bytes =>
    if imageFits bytes then
      { s with mem := Memory.copyIn s.font s.mem Config.progBase bytes, out := ⟨none, some .loaded⟩ }
    else { s with out := ⟨none, some .oversize⟩ }
  | .unreadable => { s with out := ⟨none, some .ioError⟩ }

/-- `set_quirk(b)`: QUIRK <- b and nothing else, halted or not (spec/40_cycle.md R130). -/
def State.performSetQuirk (s : State) (b : Bool) : State := { s with quirk := b, out := .quiet }

/-- `read()`: reads state and changes nothing (spec/40_cycle.md R120, R129); the host reads the state itself. -/
def State.performRead (s : State) : State := { s with out := .quiet }

/-- One host operation, run to completion. -/
def perform (op : HostOp) (s : State) : Result :=
  match op with
  | .reset => .next s.resetCore
  | .load source => .next (s.performLoad source)
  | .setQuirk b => .next (s.performSetQuirk b)
  | .cycle keys rnd => cycle keys rnd s
  | .read => .next s.performRead

/-- The operation the host performs next, and the state with it taken off the script. An empty script is a host that goes
on performing `cycle`, with keys and a random byte that are free values (notes/assumptions/3.md, 4.md). -/
def State.nextOp (s : State) : HostOp × State :=
  match s.pending with
  | op :: rest => (op, { s with pending := rest })
  | [] => (.cycle (Config.freeKeys s.draws) (Config.freeByte s.draws), { s with draws := s.draws + 1 })

/-- Performs the host's next operation. -/
def performNext (s : State) : Result := perform s.nextOp.1 s.nextOp.2

/-- The status output of R128 (d). -/
inductive Status where
  | ok
  | halted (cause : FaultCause) (pc : Word) (word : Option Word)
  deriving DecidableEq, Repr

/-- The status the core presents: OK, or HALTED with the fault record (spec/40_cycle.md R128 (d)). -/
def State.status (s : State) : Status :=
  if s.halted then .halted s.faultCause s.faultPc s.faultWord else .ok

/-- The address the next fetch reads: PC, or the entry point where no instruction can stand at PC
(`State.withFetchWord`, notes/assumptions/9.md). -/
def State.fetchAddress (s : State) : Word := if s.pc.toNat + 1 < Config.memSize then s.pc else 0x0200

/-- The state with an instruction's bytes placed at PC and a cycle queued that runs it (`State.withFetchWord`,
notes/assumptions/9.md): a halted core fetches nothing, so the fault record is cleared.
DESIGN CHOICE, notes/assumptions/4.md and 9.md: the keys of that cycle are the snapshot the core holds, and its random byte
is the next free value of the draw counter, which this advances: it is not the byte of any later cycle (R133). -/
def State.placeInstruction (s : State) (bytes : List Byte) : State :=
  { s with
    pc := s.fetchAddress
    mem := Memory.copyIn s.font s.mem s.fetchAddress.toNat bytes
    halted := false, faultCause := .noFault, faultPc := 0, faultWord := none
    pending := .cycle s.keypad (Config.freeByte s.draws) :: s.pending
    draws := s.draws + 1 }

end Sys2Proof.Machine
end

