-- ==== Sys2Proof/Machine/Step.lean ====
section
/-! DEFINITION. The step of the machine: one host operation (Machine/HostOps.lean), which for `cycle` is one fetch, decode,
execute and timer decrement (Machine/Cycle.lean). -/

namespace Sys2Proof.Machine

/-- One step. -/
def step (s : State) : Host.Outcome State Fault Refusal := performNext s

/-- The state whose very next step fetches and runs the instruction of bits `w`, numbered as spec/opcode_table.json numbers
them (notes/assumptions/9.md). -/
def State.withFetchWord (s : State) (nbits w : Nat) : State := s.placeInstruction (tableBytes nbits w)

end Sys2Proof.Machine
end

