-- ==== Sys2Proof/Safety.lean ====
section
/-! DEFINITION. The properties the claims speak of: the invariant of the machine between operations, a safe step, and the
spec's own tables and conditions written out apart from the machine (the opcode map, the fault conditions, the registers an
instruction may write, the pixels a sprite reaches, the reset values). -/

namespace Sys2Proof.Machine

/-! ### The invariant -/

/-- PC stays where R26 of spec/10_state.md says it can be: PC itself, and every return address on the stack. -/
def Arch.pcInRange (a : Arch) : Prop :=
  a.pc.toNat ≤ 0x10FE ∧ ∀ k : Fin 16, a.stack[k].toNat ≤ 0x1000

/-- The fault record says what R302, R303 and R306 of spec/60_exceptions.md say of it: a core that has not halted has a
clear record; a halted one has a cause, PC still holds the faulting address, and only a fetch fault has no word. -/
def Arch.recordCoherent (a : Arch) : Prop :=
  (a.halted = false → a.faultCause = .noFault ∧ a.faultPc = 0 ∧ a.faultWord = none) ∧
  (a.halted = true → a.faultCause ≠ .noFault ∧ a.faultPc = a.pc ∧
    (a.faultWord = none → a.faultCause = .addressFault ∧ 0x0FFF ≤ a.pc.toNat))

/-- The invariant of the machine between host operations. -/
structure State.Inv (s : State) : Prop where
  /-- No cycle is running. -/
  idle : s.inCycle = none
  /-- Memory has its canonical form. -/
  memory : Memory.wf s.font s.mem = true
  /-- PC and the return addresses are in range. -/
  range : s.pcInRange
  /-- The fault record is coherent. -/
  record : s.recordCoherent

/-- A step is safe if the machine goes on and the core has not halted on a fatal fault. -/
def State.StepSafe (s : State) : Prop := ∃ t, step s = .next t ∧ t.halted = false

/-! ### The cycle, as the host sees it -/

/-- The host's next operation on `s` is `cycle(keys, rnd)`, and `s'` is `s` with that operation taken off: it stands first
in the script, or the script is empty and the inputs are free values (notes/assumptions/3.md, 4.md). -/
def State.HostCycle (s : State) (keys : Vector Bool 16) (rnd : Byte) (s' : State) : Prop :=
  (s.pending = .cycle keys rnd :: s'.pending ∧ s' = { s with pending := s'.pending }) ∨
  (s.pending = [] ∧ keys = Config.freeKeys s.draws ∧ rnd = Config.freeByte s.draws ∧
    s' = { s with draws := s.draws + 1 })

/-- The word at PC, big-endian (spec/20_memory.md R67). -/
def State.wordAtPc (s : State) : Word := s.byteAt s.pc.toNat ++ s.byteAt (s.pc.toNat + 1)

/-- The state Execute starts from: the keys latched, the word in OPCODE, PC advanced by 2, and S0 kept
(spec/40_cycle.md R121). -/
def State.atExecute (s : State) (keys : Vector Bool 16) (rnd : Byte) : State :=
  { s with
    keypad := keys, opcode := s.wordAtPc, pc := s.pc + 2, inCycle := some ⟨s.toArch, rnd⟩, out := .quiet }

/-- A timer after the decrement of a completed cycle (spec/40_cycle.md R125). -/
def decremented (t : Byte) : Byte := BitVec.ofNat 8 (t.toNat - 1)

/-! ### Faults (spec/60_exceptions.md R302) -/

/-- The fatal fault an instruction raises in a state, by the condition column of R302. -/
def faultOf (i : Instr) (s : State) : FaultCause :=
  match i with
  | .ret => if s.sp.val = 0 then .stackUnderflow else .noFault
  | .call _ => if s.sp.val = 16 then .stackOverflow else .noFault
  | .skp x | .sknp x => if s.v[x].toNat > 15 then .keyIndexFault else .noFault
  | .addI x => if s.i.toNat + s.v[x].toNat > 0xFFFF then .indexOverflow else .noFault
  | .drw _ _ n => if 1 ≤ n.val ∧ s.i.toNat + n.val - 1 ≥ 0x1000 then .addressFault else .noFault
  | .ldBcd _ => if s.i.toNat + 2 ≥ 0x1000 then .addressFault else .noFault
  | .storeRegs x | .loadRegs x => if s.i.toNat + x.val ≥ 0x1000 then .addressFault else .noFault
  | .cls | .jp _ | .seImm _ _ | .sneImm _ _ | .seReg _ _ | .ldImm _ _ | .addImm _ _ | .ldReg _ _ | .orReg _ _
  | .andReg _ _ | .xorReg _ _ | .addReg _ _ | .subReg _ _ | .shr _ _ | .subnReg _ _ | .shl _ _ | .sneReg _ _
  | .ldI _ | .jpV0 _ | .rnd _ _ | .ldVxDt _ | .ldKey _ | .ldDtVx _ | .ldStVx _ | .ldFont _ => .noFault

/-- The architectural state a fatal fault leaves: S0 with the fault record written (R303). -/
def Arch.faulted (start : Arch) (cause : FaultCause) (word : Option Word) : Arch :=
  { start with halted := true, faultCause := cause, faultPc := start.pc, faultWord := word }

/-! ### The access matrix (spec/10_state.md R38) -/

/-- The registers an instruction may write: its X operand, VF for an instruction with a flag, V0..VX for FX65. -/
def mayWriteReg (i : Instr) (r : Reg) : Prop :=
  match i with
  | .ldImm x _ | .addImm x _ | .ldReg x _ | .orReg x _ | .andReg x _ | .xorReg x _ | .rnd x _ | .ldVxDt x
  | .ldKey x => r = x
  | .addReg x _ | .subReg x _ | .shr x _ | .subnReg x _ | .shl x _ => r = x ∨ r = 15
  | .drw _ _ _ => r = 15
  | .loadRegs x => r ≤ x
  | .cls | .ret | .jp _ | .call _ | .seImm _ _ | .sneImm _ _ | .seReg _ _ | .sneReg _ _ | .ldI _ | .jpV0 _
  | .skp _ | .sknp _ | .ldDtVx _ | .ldStVx _ | .addI _ | .ldFont _ | .ldBcd _ | .storeRegs _ => False

/-- The instructions that write PC beside the fetch (R38): returns, jumps, calls, skips and the FX0A rewind. -/
def mayTransfer (i : Instr) : Prop :=
  match i with
  | .ret | .jp _ | .call _ | .seImm _ _ | .sneImm _ _ | .seReg _ _ | .sneReg _ _ | .jpV0 _ | .skp _ | .sknp _
  | .ldKey _ => True
  | .cls | .ldImm _ _ | .addImm _ _ | .ldReg _ _ | .orReg _ _ | .andReg _ _ | .xorReg _ _ | .addReg _ _
  | .subReg _ _ | .shr _ _ | .subnReg _ _ | .shl _ _ | .ldI _ | .rnd _ _ | .drw _ _ _ | .ldVxDt _ | .ldDtVx _
  | .ldStVx _ | .addI _ | .ldFont _ | .ldBcd _ | .storeRegs _ | .loadRegs _ => False

/-! ### The display (spec/44_display.md) -/

/-- The N-row sprite at I, drawn at (V[X], V[Y]), has a set bit on the pixel (px, py): bit 7 - col of the byte at I + row,
at column (V[X] + col) mod 64 and row (V[Y] + row) mod 32 (R252, R253, R255). -/
def State.SpriteCovers (s : State) (x y : Reg) (n : Fin 16) (px : Fin 64) (py : Fin 32) : Prop :=
  ∃ row col : Nat, row < n.val ∧ col < 8 ∧ (s.byteAt (s.i.toNat + row)).getLsbD (7 - col) = true ∧
    px.val = (s.v[x].toNat + col) % 64 ∧ py.val = (s.v[y].toNat + row) % 32

/-! ### Reset (spec/10_state.md R40) -/

/-- Every element holds its value of the table of R40, for a given QUIRK; memory is read through the model's read of one
byte, FONT being the machine's parameter. -/
structure State.HasResetValues (s : State) (quirk : Bool) : Prop where
  v : ∀ r : Reg, s.v[r] = 0
  i : s.i = 0
  pc : s.pc = 0x0200
  sp : s.sp = 0
  stack : ∀ k : Fin 16, s.stack[k] = 0
  dt : s.dt = 0
  st : s.st = 0
  keypad : ∀ k : Fin 16, s.keypad[k] = false
  display : ∀ (px : Fin 64) (py : Fin 32), s.display[py][px] = false
  opcode : s.opcode = 0
  quirk_eq : s.quirk = quirk
  fontBytes : ∀ k : Fin 80, s.byteAt (0x050 + k.val) = s.font[k]
  otherBytes : ∀ a < 0x1000, a < 0x050 ∨ 0x0A0 ≤ a → s.byteAt a = 0
  record : s.halted = false ∧ s.faultCause = .noFault ∧ s.faultPc = 0 ∧ s.faultWord = none

/-! ### The opcode map (spec/30_encoding.md R94, R97) -/

/-- The match and mask columns of R94, in its order. -/
def opcodeMap : List (Word × Word) :=
  [(0x00E0, 0xFFFF), (0x00EE, 0xFFFF), (0x1000, 0xF000), (0x2000, 0xF000), (0x3000, 0xF000), (0x4000, 0xF000),
   (0x5000, 0xF00F), (0x6000, 0xF000), (0x7000, 0xF000), (0x8000, 0xF00F), (0x8001, 0xF00F), (0x8002, 0xF00F)] ++
  [(0x8003, 0xF00F), (0x8004, 0xF00F), (0x8005, 0xF00F), (0x8006, 0xF00F), (0x8007, 0xF00F), (0x800E, 0xF00F),
   (0x9000, 0xF00F), (0xA000, 0xF000), (0xB000, 0xF000), (0xC000, 0xF000), (0xD000, 0xF000), (0xE09E, 0xF0FF)] ++
  [(0xE0A1, 0xF0FF), (0xF007, 0xF0FF), (0xF00A, 0xF0FF), (0xF015, 0xF0FF), (0xF018, 0xF0FF), (0xF01E, 0xF0FF),
   (0xF029, 0xF0FF), (0xF033, 0xF0FF), (0xF055, 0xF0FF), (0xF065, 0xF0FF)]

/-- The unknown space, exactly as R97 lists it. -/
def inUnknownSpace (w : Word) : Prop :=
  (w.toNat / 4096 = 0x0 ∧ w ≠ 0x00E0 ∧ w ≠ 0x00EE) ∨
  (w.toNat / 4096 = 0x5 ∧ w.toNat % 16 ≠ 0) ∨
  (w.toNat / 4096 = 0x8 ∧ w.toNat % 16 ∈ [0x8, 0x9, 0xA, 0xB, 0xC, 0xD, 0xF]) ∨
  (w.toNat / 4096 = 0x9 ∧ w.toNat % 16 ≠ 0) ∨
  (w.toNat / 4096 = 0xE ∧ w.toNat % 256 ∉ [0x9E, 0xA1]) ∨
  (w.toNat / 4096 = 0xF ∧ w.toNat % 256 ∉ [0x07, 0x0A, 0x15, 0x18, 0x1E, 0x29, 0x33, 0x55, 0x65])

end Sys2Proof.Machine
end

