-- ==== Sys2Proof/Certificates/Slice0/Obligations.lean ====
section
/-! DEFINITION. The statements for the provers, in the order of the spec's files: encoding, the cycle and the host's
operations, faults, whole-machine rules, then the instructions. A meaning's result is stated as the whole next state: an
update of the old one, so that every element it does not name is unchanged. -/

open Sys2Proof Sys2Proof.Machine

/-! ### Encoding (spec/30_encoding.md) -/

/-- Decode and encode agree: no bit of an encoding is dropped, for every instruction and every operand value. -/
def Obligations.DecodeOfEncode : Prop :=
  ∀ i : Instr, decode (encode i) = .instr i

/-- Each word has one meaning, so encoding a decoded instruction gives the word back. -/
def Obligations.EncodeOfDecode : Prop :=
  ∀ (w : Word) (i : Instr), decode w = .instr i → encode i = w

/-- R91: the fields of a word as numbers. -/
def Obligations.FieldsAreTheNibbles : Prop :=
  ∀ w : Word, (fieldX w).val = w.toNat / 256 % 16 ∧ (fieldY w).val = w.toNat / 16 % 16 ∧
    (fieldN w).val = w.toNat % 16 ∧ (fieldNN w).toNat = w.toNat % 256 ∧ (fieldNNN w).toNat = w.toNat % 4096

/-- R94: a word selects a row iff `w AND mask = match`, and then decodes to that row's instruction with the fields of its
format; a word that selects no row is unknown. -/
def Obligations.DecoderFollowsTheOpcodeMap : Prop :=
  ∀ w : Word,
    (w &&& 0xFFFF = 0x00E0 → decode w = .instr .cls) ∧
    (w &&& 0xFFFF = 0x00EE → decode w = .instr .ret) ∧
    (w &&& 0xF000 = 0x1000 → decode w = .instr (.jp (fieldNNN w))) ∧
    (w &&& 0xF000 = 0x2000 → decode w = .instr (.call (fieldNNN w))) ∧
    (w &&& 0xF000 = 0x3000 → decode w = .instr (.seImm (fieldX w) (fieldNN w))) ∧
    (w &&& 0xF000 = 0x4000 → decode w = .instr (.sneImm (fieldX w) (fieldNN w))) ∧
    (w &&& 0xF00F = 0x5000 → decode w = .instr (.seReg (fieldX w) (fieldY w))) ∧
    (w &&& 0xF000 = 0x6000 → decode w = .instr (.ldImm (fieldX w) (fieldNN w))) ∧
    (w &&& 0xF000 = 0x7000 → decode w = .instr (.addImm (fieldX w) (fieldNN w))) ∧
    (w &&& 0xF00F = 0x8000 → decode w = .instr (.ldReg (fieldX w) (fieldY w))) ∧
    (w &&& 0xF00F = 0x8001 → decode w = .instr (.orReg (fieldX w) (fieldY w))) ∧
    (w &&& 0xF00F = 0x8002 → decode w = .instr (.andReg (fieldX w) (fieldY w))) ∧
    (w &&& 0xF00F = 0x8003 → decode w = .instr (.xorReg (fieldX w) (fieldY w))) ∧
    (w &&& 0xF00F = 0x8004 → decode w = .instr (.addReg (fieldX w) (fieldY w))) ∧
    (w &&& 0xF00F = 0x8005 → decode w = .instr (.subReg (fieldX w) (fieldY w))) ∧
    (w &&& 0xF00F = 0x8006 → decode w = .instr (.shr (fieldX w) (fieldY w))) ∧
    (w &&& 0xF00F = 0x8007 → decode w = .instr (.subnReg (fieldX w) (fieldY w))) ∧
    (w &&& 0xF00F = 0x800E → decode w = .instr (.shl (fieldX w) (fieldY w))) ∧
    (w &&& 0xF00F = 0x9000 → decode w = .instr (.sneReg (fieldX w) (fieldY w))) ∧
    (w &&& 0xF000 = 0xA000 → decode w = .instr (.ldI (fieldNNN w))) ∧
    (w &&& 0xF000 = 0xB000 → decode w = .instr (.jpV0 (fieldNNN w))) ∧
    (w &&& 0xF000 = 0xC000 → decode w = .instr (.rnd (fieldX w) (fieldNN w))) ∧
    (w &&& 0xF000 = 0xD000 → decode w = .instr (.drw (fieldX w) (fieldY w) (fieldN w))) ∧
    (w &&& 0xF0FF = 0xE09E → decode w = .instr (.skp (fieldX w))) ∧
    (w &&& 0xF0FF = 0xE0A1 → decode w = .instr (.sknp (fieldX w))) ∧
    (w &&& 0xF0FF = 0xF007 → decode w = .instr (.ldVxDt (fieldX w))) ∧
    (w &&& 0xF0FF = 0xF00A → decode w = .instr (.ldKey (fieldX w))) ∧
    (w &&& 0xF0FF = 0xF015 → decode w = .instr (.ldDtVx (fieldX w))) ∧
    (w &&& 0xF0FF = 0xF018 → decode w = .instr (.ldStVx (fieldX w))) ∧
    (w &&& 0xF0FF = 0xF01E → decode w = .instr (.addI (fieldX w))) ∧
    (w &&& 0xF0FF = 0xF029 → decode w = .instr (.ldFont (fieldX w))) ∧
    (w &&& 0xF0FF = 0xF033 → decode w = .instr (.ldBcd (fieldX w))) ∧
    (w &&& 0xF0FF = 0xF055 → decode w = .instr (.storeRegs (fieldX w))) ∧
    (w &&& 0xF0FF = 0xF065 → decode w = .instr (.loadRegs (fieldX w))) ∧
    ((∀ row ∈ opcodeMap, w &&& row.2 ≠ row.1) → decode w = .unknown w)

/-- R95: no two rows of the decoder's table match the same word; and the match and mask values of that table are those of
R94, row for row up to the order. -/
def Obligations.OpcodeRowsAreDisjoint : Prop :=
  (∀ w : Word, ∀ r ∈ opcodeTable, ∀ r' ∈ opcodeTable, r.selects w = true → r'.selects w = true → r = r') ∧
  (opcodeTable.map fun r => (r.mtch, r.mask)).Perm opcodeMap

/-- R97: the unknown variant carries the word, and the unknown space is exactly the one listed. -/
def Obligations.UnknownSpaceIsExactlyTheListedOne : Prop :=
  ∀ w : Word, (decode w = .unknown w ↔ inUnknownSpace w) ∧ ∀ u, decode w = .unknown u → u = w

/-- A few words of the manual's examples decode to the instructions they stand for. -/
def Obligations.ManualWordsDecode : Prop :=
  decode 0x00EE = .instr .ret ∧ decode 0x2210 = .instr (.call 0x210) ∧ decode 0x60EA = .instr (.ldImm 0 0xEA) ∧
    decode 0x8126 = .instr (.shr 1 2) ∧ decode 0xF21E = .instr (.addI 2) ∧ decode 0xD015 = .instr (.drw 0 1 5) ∧
    decode 0xE49E = .instr (.skp 4) ∧ decode 0x8128 = .unknown 0x8128

/-! ### The cycle and the host's operations (spec/40_cycle.md, spec/70_reset_and_hazards.md) -/

/-- One step performs the host's next operation: the first of the script, or, when the script is empty, a cycle whose keys
and random byte are free values (the model's choice, notes/assumptions/3.md and 4.md; nothing is said of the values). -/
def Obligations.StepPerformsTheNextHostOperation : Prop :=
  ∀ s : State,
    (∀ op rest, s.pending = op :: rest → step s = perform op { s with pending := rest }) ∧
    (s.pending = [] →
      step s = perform (.cycle (Config.freeKeys s.draws) (Config.freeByte s.draws)) { s with draws := s.draws + 1 })

/-- A step takes one operation off the script, or counts one draw when the script is empty; it never adds an operation, and
FONT never changes. No instruction reaches the model's own fields (the model's choice, notes/assumptions/1.md, 3.md and
4.md). -/
def Obligations.StepTakesOneOperationOffTheScript : Prop :=
  ∀ s t : State, step s = .next t →
    t.pending = s.pending.tail ∧ t.font = s.font ∧
    t.draws = if s.pending = [] then s.draws + 1 else s.draws

/-- A step runs the decoded instruction: when the two bytes at PC decode to i, the step is exec of i on the state with keys
latched, OPCODE written and PC advanced by 2, followed by the timer decrement of a cycle that has not halted. -/
def Obligations.StepRunsTheDecodedInstruction : Prop :=
  ∀ (s s' u : State) (keys : Vector Bool 16) (rnd : Byte) (i : Instr),
    s.HostCycle keys rnd s' → s.halted = false → s.pc.toNat ≤ 0x0FFE → decode s.wordAtPc = .instr i →
    exec i (s'.atExecute keys rnd) = .next u →
    step s = .next { u with
      dt := if u.halted then u.dt else decremented u.dt
      st := if u.halted then u.st else decremented u.st
      inCycle := none }

/-- R124: a fetch at PC >= 0x0FFF raises ADDRESS_FAULT with no word and no effect but the fault record; otherwise the word
is formed big-endian, OPCODE takes it and PC is advanced by 2 before Execute. -/
def Obligations.FetchFaultsOrAdvances : Prop :=
  ∀ (s s' : State) (keys : Vector Bool 16) (rnd : Byte), s.HostCycle keys rnd s' → s.halted = false →
    (0x0FFF ≤ s.pc.toNat →
      step s = .next { s' with toArch := s.toArch.faulted .addressFault none, inCycle := none, out := .quiet }) ∧
    (s.pc.toNat < 0x0FFF →
      step s = onNext State.endCycle (execWord s.wordAtPc (s'.atExecute keys rnd)) ∧
      s.wordAtPc.toNat = 256 * (s.byteAt s.pc.toNat).toNat + (s.byteAt (s.pc.toNat + 1)).toNat ∧
      (s'.atExecute keys rnd).opcode = s.wordAtPc ∧ (s'.atExecute keys rnd).pc = s.pc + 2)

/-- R123: the keypad snapshot is overwritten with the cycle's keys, all 16 of them, before Execute, and a cycle that
completes leaves them there. -/
def Obligations.CycleLatchesTheKeys : Prop :=
  ∀ (s s' t : State) (keys : Vector Bool 16) (rnd : Byte), s.HostCycle keys rnd s' → s.halted = false →
    step s = .next t → t.halted = false →
    (∃ u, execWord s.wordAtPc (s'.atExecute keys rnd) = .next u ∧ t = u.endCycle) ∧
    (s'.atExecute keys rnd).keypad = keys ∧ t.keypad = keys

/-- R122: a cycle of a halted core changes no state, its status says it is halted, and only reset leaves that state. -/
def Obligations.HaltedCoreIgnoresCycles : Prop :=
  ∀ s t : State, s.halted = true → step s = .next t →
    (∀ keys rnd s', s.HostCycle keys rnd s' →
      t = { s' with out := .quiet } ∧ t.status = .halted s.faultCause s.faultPc s.faultWord) ∧
    (t.halted = false → ∃ rest, s.pending = .reset :: rest)

/-- R125: in every completed cycle, whatever the word, both timers are decremented after Execute, and a timer at 0 stays
at 0. -/
def Obligations.TimersCountCompletedCycles : Prop :=
  ∀ (s s' t : State) (keys : Vector Bool 16) (rnd : Byte), s.HostCycle keys rnd s' → s.halted = false →
    step s = .next t → t.halted = false →
    ∃ u, execWord s.wordAtPc (s'.atExecute keys rnd) = .next u ∧
      t = { u with
        dt := if u.dt = 0 then 0 else u.dt - 1
        st := if u.st = 0 then 0 else u.st - 1
        inCycle := none }

/-- R301: a cycle that executes the unknown variant signals the word and changes nothing but what the fetch and the timer
decrement change. -/
def Obligations.UnknownWordIsSignalledAndSkipped : Prop :=
  ∀ (s s' : State) (keys : Vector Bool 16) (rnd : Byte), s.HostCycle keys rnd s' → s.halted = false →
    s.pc.toNat ≤ 0x0FFE → decode s.wordAtPc = .unknown s.wordAtPc →
    step s = .next { s' with
      keypad := keys, opcode := s.wordAtPc, pc := s.pc + 2
      dt := decremented s.dt, st := decremented s.st
      inCycle := none, out := ⟨some s.wordAtPc, none⟩ }

/-- R130: set_quirk writes QUIRK and changes nothing else, halted or not; a read changes nothing at all. The outputs are
those of the last operation, so they are quiet after either (the model's choice, notes/assumptions/7.md). -/
def Obligations.SetQuirkWritesQuirkOnlyAndReadNothing : Prop :=
  ∀ (s : State) (b : Bool) (rest : List HostOp),
    (s.pending = .setQuirk b :: rest → step s = .next { s with quirk := b, pending := rest, out := .quiet }) ∧
    (s.pending = .read :: rest → step s = .next { s with pending := rest, out := .quiet })

/-- R343, R344, R345: a load writes its image from 0x200 and nothing else; an image that is too long or cannot be read
changes no state. -/
def Obligations.LoadWritesTheImageOrNothing : Prop :=
  ∀ (s : State) (rest : List HostOp),
    (∀ image : List Byte, s.pending = .load (.image image) :: rest → image.length ≤ 3584 →
      ∃ t, step s = .next t ∧
        t = { s with mem := t.mem, pending := rest, out := ⟨none, some .loaded⟩ } ∧
        (Memory.wf s.font s.mem = true →
          (∀ k (h : k < image.length), t.byteAt (0x200 + k) = image[k]) ∧
          ∀ a, a < 0x200 ∨ 0x200 + image.length ≤ a → t.byteAt a = s.byteAt a)) ∧
    (∀ image : List Byte, s.pending = .load (.image image) :: rest → 3584 < image.length →
      step s = .next { s with pending := rest, out := ⟨none, some .oversize⟩ }) ∧
    (s.pending = .load .unreadable :: rest →
      step s = .next { s with pending := rest, out := ⟨none, some .ioError⟩ })

/-- R340: reset puts every element to its value of R40 and keeps QUIRK, from any state. FONT is the machine's parameter and
stays. -/
def Obligations.ResetGivesTheResetValues : Prop :=
  ∀ (s : State) (rest : List HostOp), s.pending = .reset :: rest →
    ∃ t, step s = .next t ∧ t.HasResetValues s.quirk ∧ t.font = s.font

/-- R341: power-on gives the same values, for every FONT and every SHIFT_QUIRK_INIT. -/
def Obligations.PowerOnGivesTheResetValues : Prop :=
  ∀ (font : Font) (shiftQuirkInit : Bool),
    (State.powerOn font shiftQuirkInit).HasResetValues shiftQuirkInit ∧
    (State.powerOn font shiftQuirkInit).font = font

/-- Boot: after power-on, a loaded image of at least two bytes is fetched from its first byte on. -/
def Obligations.BootFetchesTheFirstWordOfTheImage : Prop :=
  ∀ (font : Font) (q : Bool) (hi lo : Byte) (image : List Byte) (ops : List HostOp), image.length ≤ 3582 →
    ∃ t, step { State.powerOn font q with pending := .load (.image (hi :: lo :: image)) :: ops } = .next t ∧
      t.pending = ops ∧ t.pc = 0x200 ∧ t.fetchWord = some (hi ++ lo)

/-! ### Faults (spec/60_exceptions.md) -/

/-- R302: each instruction, and the fetch, raises the fault of the table, under the table's condition and no other, with the
table's word, and the causes have the table's codes. Without a fault the instruction completes. -/
def Obligations.FaultsHaveTheListedConditions : Prop :=
  (∀ (i : Instr) (s : State) (c : CycleContext), s.inCycle = some c →
    (faultOf i s ≠ .noFault →
      exec i s = .next { s with toArch := c.start.faulted (faultOf i s) (some s.opcode) }) ∧
    (faultOf i s = .noFault →
      ∃ t, exec i s = .next t ∧ t.halted = s.halted ∧ t.faultCause = s.faultCause ∧ t.faultPc = s.faultPc ∧
        t.faultWord = s.faultWord)) ∧
  (∀ (s s' t : State) (keys : Vector Bool 16) (rnd : Byte), s.HostCycle keys rnd s' → s.halted = false →
    step s = .next t →
    (0x1000 ≤ s.pc.toNat + 1 → t.halted = true ∧ t.faultCause = .addressFault ∧ t.faultWord = none) ∧
    (s.pc.toNat + 1 < 0x1000 → t.halted = true → t.faultWord = some s.wordAtPc)) ∧
  FaultCause.noFault.code = 0 ∧ FaultCause.addressFault.code = 1 ∧ FaultCause.stackOverflow.code = 2 ∧
    FaultCause.stackUnderflow.code = 3 ∧ FaultCause.keyIndexFault.code = 4 ∧ FaultCause.indexOverflow.code = 5

/-- R303: a cycle that ends in a fatal fault leaves the whole state of its start and the fault record, and nothing else: no
register, memory, display, stack, timer or keypad effect remains, the word is none exactly for a fetch fault, and the status
reports the record (also R126 of spec/40_cycle.md). -/
def Obligations.FaultRollsTheCycleBack : Prop :=
  ∀ (s s' t : State) (keys : Vector Bool 16) (rnd : Byte), s.HostCycle keys rnd s' → s.halted = false →
    step s = .next t → t.halted = true →
    ∃ cause word, cause ≠ .noFault ∧
      t = { s' with toArch := s.toArch.faulted cause word, inCycle := none, out := .quiet } ∧
      word = (if 0x0FFF ≤ s.pc.toNat then none else some s.wordAtPc) ∧
      t.status = .halted cause s.pc word

/-- Apart from the fatal faults, which are next states with `halted` set, nothing stops the machine: every instruction and
every step answers a next state. -/
def Obligations.NothingStopsTheMachine : Prop :=
  (∀ (i : Instr) (s : State), ∃ t, exec i s = .next t) ∧ ∀ s : State, ∃ t, step s = .next t

/-! ### Whole-machine rules -/

/-- The invariant holds at power-on, whatever FONT and the power-on value of QUIRK, so it holds at `State.reset`. -/
def Obligations.InvHoldsAtReset : Prop :=
  (∀ (font : Font) (q : Bool), (State.powerOn font q).Inv) ∧ State.reset.Inv

/-- Every step keeps the invariant: memory keeps its canonical form, PC and the return addresses stay in the range of R26
of spec/10_state.md, and the fault record stays coherent, under every host operation. -/
def Obligations.StepKeepsTheInvariant : Prop :=
  ∀ s t : State, s.Inv → step s = .next t → t.Inv

/-- PC never wraps: from a state of the invariant, a fetch that succeeds advances PC to at most 0x1000, exactly by 2. -/
def Obligations.FetchAdvanceNeverWraps : Prop :=
  ∀ (s : State) (w : Word), s.Inv → s.fetchWord = some w →
    (s.advance w).pc.toNat = s.pc.toNat + 2 ∧ (s.advance w).pc.toNat ≤ 0x1000

/-- The written column of the access matrix: an element that differs after an instruction that has not faulted was written
by one of the instructions the matrix lists for it. -/
def Obligations.OnlyListedInstructionsWriteEachElement : Prop :=
  ∀ (i : Instr) (s t : State), exec i s = .next t → t.halted = false →
    (∀ r : Reg, t.v[r] ≠ s.v[r] → mayWriteReg i r) ∧
    (t.i ≠ s.i → (∃ nnn, i = .ldI nnn) ∨ (∃ x, i = .addI x) ∨ ∃ x, i = .ldFont x) ∧
    (t.pc ≠ s.pc → mayTransfer i) ∧
    (t.sp ≠ s.sp → (∃ nnn, i = .call nnn) ∨ i = .ret) ∧
    (t.stack ≠ s.stack → ∃ nnn, i = .call nnn) ∧
    (t.dt ≠ s.dt → ∃ x, i = .ldDtVx x) ∧
    (t.st ≠ s.st → ∃ x, i = .ldStVx x) ∧
    (t.display ≠ s.display → i = .cls ∨ ∃ x y n, i = .drw x y n) ∧
    (t.mem ≠ s.mem → (∃ x, i = .ldBcd x) ∨ ∃ x, i = .storeRegs x) ∧
    t.keypad = s.keypad ∧ t.opcode = s.opcode ∧ t.quirk = s.quirk ∧ t.faultCause = s.faultCause ∧
    t.faultPc = s.faultPc ∧ t.faultWord = s.faultWord ∧ t.font = s.font

/-- OPCODE does not affect execution: two machines that differ in OPCODE alone differ, after a step, in OPCODE alone. -/
def Obligations.OpcodeRegisterDoesNotAffectExecution : Prop :=
  ∀ (s t t' : State) (o : Word), step s = .next t → step { s with opcode := o } = .next t' →
    t' = { t with opcode := t'.opcode }

/-- Only CXNN reads the random byte: in a cycle of any other word, the random byte makes no difference. -/
def Obligations.OnlyRandomInstructionReadsTheRandomByte : Prop :=
  ∀ (s : State) (keys : Vector Bool 16) (rnd rnd' : Byte) (rest : List HostOp),
    (∀ x nn, decode s.wordAtPc ≠ .instr (.rnd x nn)) →
    step { s with pending := .cycle keys rnd :: rest } = step { s with pending := .cycle keys rnd' :: rest }

/-- QUIRK changes the two shifts only, and with X = Y not even those. -/
def Obligations.QuirkChangesTheShiftsOnly : Prop :=
  ∀ (i : Instr) (s t t' : State) (q : Bool), (∀ x y, x ≠ y → i ≠ .shr x y ∧ i ≠ .shl x y) →
    exec i s = .next t → exec i { s with quirk := q } = .next t' → t' = { t with quirk := t'.quirk }

/-- Memory reads back what was written, and a write leaves every other address alone and keeps the canonical form. -/
def Obligations.MemoryReadsTheMostRecentWrite : Prop :=
  ∀ (s t : State) (a : Nat) (b : Byte), Memory.wf s.font s.mem = true → s.memWrite a b = some t →
    t.memRead a = some b ∧ (∀ a', a' ≠ a → t.memRead a' = s.memRead a') ∧ Memory.wf t.font t.mem = true

/-- R65: an access at an address of 0x1000 or more does not take place; every lower address can be read and written. -/
def Obligations.AccessesOutsideMemoryDoNotTakePlace : Prop :=
  ∀ (s : State) (a : Nat) (b : Byte),
    (0x1000 ≤ a → s.memRead a = none ∧ s.memWrite a b = none) ∧
    (a < 0x1000 → s.memRead a = some (s.byteAt a) ∧ ∃ t, s.memWrite a b = some t)

/-! ### Control flow (spec/41_flow.md) -/

/-- R151: 00EE pops the return address; with SP = 0 it raises STACK_UNDERFLOW. -/
def Obligations.ReturnPopsTheStack : Prop :=
  decode 0x00EE = .instr .ret ∧
  (∀ (s : State) (k : Fin 16), s.sp.val = k.val + 1 →
    exec .ret s = .next { s with sp := k.castSucc, pc := s.stack[k] }) ∧
  ∀ (s : State) (c : CycleContext), s.sp = 0 → s.inCycle = some c →
    exec .ret s = .next { s with toArch := c.start.faulted .stackUnderflow (some s.opcode) }

/-- R152, R158: 1NNN jumps to NNN, BNNN to V0 + NNN with no mask. -/
def Obligations.JumpsGoToTheirTarget : Prop :=
  (∀ w : Word, (w.extractLsb' 12 4 = 0x1#4 → decode w = .instr (.jp (fieldNNN w))) ∧
    (w.extractLsb' 12 4 = 0xB#4 → decode w = .instr (.jpV0 (fieldNNN w)))) ∧
  ∀ (nnn : Addr) (s : State),
    exec (.jp nnn) s = .next { s with pc := BitVec.ofNat 16 nnn.toNat } ∧
    exec (.jpV0 nnn) s = .next { s with pc := BitVec.ofNat 16 (s.v[0].toNat + nnn.toNat) } ∧
    s.v[0].toNat + nnn.toNat ≤ 0x10FE

/-- R153: 2NNN pushes the current PC and jumps; with SP = 16 it raises STACK_OVERFLOW. -/
def Obligations.CallPushesAndJumps : Prop :=
  (∀ w : Word, w.extractLsb' 12 4 = 0x2#4 → decode w = .instr (.call (fieldNNN w))) ∧
  (∀ (nnn : Addr) (s : State) (k : Fin 16), s.sp.val = k.val →
    exec (.call nnn) s =
      .next { s with stack := s.stack.set k s.pc, sp := k.succ, pc := BitVec.ofNat 16 nnn.toNat }) ∧
  ∀ (nnn : Addr) (s : State) (c : CycleContext), s.sp.val = 16 → s.inCycle = some c →
    exec (.call nnn) s = .next { s with toArch := c.start.faulted .stackOverflow (some s.opcode) }

/-- A return after a call comes back: every element is as before the call, PC and SP among them, but the stack entry the
call wrote, which keeps the return address. -/
def Obligations.ReturnUndoesCall : Prop :=
  ∀ (nnn : Addr) (s : State), s.sp.val < 16 →
    ∃ t u, exec (.call nnn) s = .next t ∧ exec .ret t = .next u ∧ u = { s with stack := u.stack } ∧
      ∀ k : Fin 16, u.stack[k] = if k.val = s.sp.val then s.pc else s.stack[k]

/-- R154, R155: 3XNN skips iff V[X] = NN, 4XNN iff V[X] differs from NN. -/
def Obligations.ImmediateSkips : Prop :=
  (∀ w : Word, (w.extractLsb' 12 4 = 0x3#4 → decode w = .instr (.seImm (fieldX w) (fieldNN w))) ∧
    (w.extractLsb' 12 4 = 0x4#4 → decode w = .instr (.sneImm (fieldX w) (fieldNN w)))) ∧
  ∀ (x : Reg) (nn : Byte) (s : State),
    exec (.seImm x nn) s = .next { s with pc := if s.v[x] = nn then s.pc + 2 else s.pc } ∧
    exec (.sneImm x nn) s = .next { s with pc := if s.v[x] = nn then s.pc else s.pc + 2 }

/-- R156, R157: 5XY0 skips iff V[X] = V[Y], 9XY0 iff they differ; another last nibble is the unknown variant. -/
def Obligations.RegisterSkips : Prop :=
  (∀ w : Word,
    (w.extractLsb' 12 4 = 0x5#4 →
      decode w = if w.extractLsb' 0 4 = 0 then .instr (.seReg (fieldX w) (fieldY w)) else .unknown w) ∧
    (w.extractLsb' 12 4 = 0x9#4 →
      decode w = if w.extractLsb' 0 4 = 0 then .instr (.sneReg (fieldX w) (fieldY w)) else .unknown w)) ∧
  ∀ (x y : Reg) (s : State),
    exec (.seReg x y) s = .next { s with pc := if s.v[x] = s.v[y] then s.pc + 2 else s.pc } ∧
    exec (.sneReg x y) s = .next { s with pc := if s.v[x] = s.v[y] then s.pc else s.pc + 2 }

/-! ### Register loads, arithmetic, logic, shifts, random (spec/42_alu.md) -/

/-- R181, R183: 6XNN loads NN, 8XY0 copies V[Y]; VF changes only as the destination. -/
def Obligations.RegisterLoads : Prop :=
  (∀ w : Word, (w.extractLsb' 12 4 = 0x6#4 → decode w = .instr (.ldImm (fieldX w) (fieldNN w))) ∧
    (w.extractLsb' 12 4 = 0x8#4 → w.extractLsb' 0 4 = 0x0#4 → decode w = .instr (.ldReg (fieldX w) (fieldY w)))) ∧
  ∀ (x y : Reg) (nn : Byte) (s : State),
    exec (.ldImm x nn) s = .next { s with v := s.v.set x nn } ∧
    exec (.ldReg x y) s = .next { s with v := s.v.set x s.v[y] }

/-- R182: 7XNN adds modulo 256 and writes no flag. -/
def Obligations.AddImmediateWraps : Prop :=
  (∀ w : Word, w.extractLsb' 12 4 = 0x7#4 → decode w = .instr (.addImm (fieldX w) (fieldNN w))) ∧
  ∀ (x : Reg) (nn : Byte) (s : State),
    exec (.addImm x nn) s = .next { s with v := s.v.set x (BitVec.ofNat 8 ((s.v[x].toNat + nn.toNat) % 256)) }

/-- R184, R185, R186: OR, AND and XOR, bit by bit, with no flag. -/
def Obligations.BitwiseOperations : Prop :=
  (∀ w : Word, w.extractLsb' 12 4 = 0x8#4 →
    (w.extractLsb' 0 4 = 0x1#4 → decode w = .instr (.orReg (fieldX w) (fieldY w))) ∧
    (w.extractLsb' 0 4 = 0x2#4 → decode w = .instr (.andReg (fieldX w) (fieldY w))) ∧
    (w.extractLsb' 0 4 = 0x3#4 → decode w = .instr (.xorReg (fieldX w) (fieldY w)))) ∧
  ∀ (x y : Reg) (s : State),
    exec (.orReg x y) s = .next { s with v := s.v.set x (s.v[x] ||| s.v[y]) } ∧
    exec (.andReg x y) s = .next { s with v := s.v.set x (s.v[x] &&& s.v[y]) } ∧
    exec (.xorReg x y) s = .next { s with v := s.v.set x (s.v[x] ^^^ s.v[y]) }

/-- R187: 8XY4 adds modulo 256; VF, written last, is 1 iff the sum is above 255. -/
def Obligations.AddSetsCarry : Prop :=
  (∀ w : Word, w.extractLsb' 12 4 = 0x8#4 → w.extractLsb' 0 4 = 0x4#4 →
    decode w = .instr (.addReg (fieldX w) (fieldY w))) ∧
  ∀ (x y : Reg) (s : State),
    exec (.addReg x y) s = .next { s with
      v := (s.v.set x (BitVec.ofNat 8 ((s.v[x].toNat + s.v[y].toNat) % 256))).set 15
        (if s.v[x].toNat + s.v[y].toNat > 255 then 1 else 0) }

/-- R188, R189, R193: the two subtractions modulo 256; VF, written last, is 1 iff there is no borrow. -/
def Obligations.SubtractionsSetNoBorrow : Prop :=
  (∀ w : Word, w.extractLsb' 12 4 = 0x8#4 →
    (w.extractLsb' 0 4 = 0x5#4 → decode w = .instr (.subReg (fieldX w) (fieldY w))) ∧
    (w.extractLsb' 0 4 = 0x7#4 → decode w = .instr (.subnReg (fieldX w) (fieldY w)))) ∧
  ∀ (x y : Reg) (s : State),
    exec (.subReg x y) s = .next { s with
      v := (s.v.set x (BitVec.ofNat 8 ((256 + s.v[x].toNat - s.v[y].toNat) % 256))).set 15
        (if s.v[x].toNat ≥ s.v[y].toNat then 1 else 0) } ∧
    exec (.subnReg x y) s = .next { s with
      v := (s.v.set x (BitVec.ofNat 8 ((256 + s.v[y].toNat - s.v[x].toNat) % 256))).set 15
        (if s.v[y].toNat ≥ s.v[x].toNat then 1 else 0) }

/-- R190, R191, R192, R194: the shifts of V[X], or of V[Y] with QUIRK; VF, written last, is the bit shifted out. -/
def Obligations.ShiftsSetTheBitShiftedOut : Prop :=
  (∀ w : Word, w.extractLsb' 12 4 = 0x8#4 →
    (w.extractLsb' 0 4 = 0x6#4 → decode w = .instr (.shr (fieldX w) (fieldY w))) ∧
    (w.extractLsb' 0 4 = 0xE#4 → decode w = .instr (.shl (fieldX w) (fieldY w)))) ∧
  ∀ (x y : Reg) (s : State) (src : Byte), src = (if s.quirk then s.v[y] else s.v[x]) →
    exec (.shr x y) s = .next { s with
      v := (s.v.set x (BitVec.ofNat 8 (src.toNat / 2))).set 15 (BitVec.ofNat 8 (src.toNat % 2)) } ∧
    exec (.shl x y) s = .next { s with
      v := (s.v.set x (BitVec.ofNat 8 (src.toNat * 2 % 256))).set 15 (BitVec.ofNat 8 (src.toNat / 128)) }

/-- R196: CXNN stores the cycle's random byte masked by NN, whatever the byte. -/
def Obligations.RandomByteIsMasked : Prop :=
  (∀ w : Word, w.extractLsb' 12 4 = 0xC#4 → decode w = .instr (.rnd (fieldX w) (fieldNN w))) ∧
  ∀ (x : Reg) (nn : Byte) (s : State) (start : Arch) (rnd : Byte), s.inCycle = some ⟨start, rnd⟩ →
    exec (.rnd x nn) s = .next { s with v := s.v.set x (rnd &&& nn) }

/-! ### Index register and memory (spec/43_memory_ops.md) -/

/-- R220, R222: ANNN loads I with NNN, FX29 points I at 0x050 + 5 * V[X], for every V[X]. -/
def Obligations.IndexLoads : Prop :=
  (∀ w : Word, (w.extractLsb' 12 4 = 0xA#4 → decode w = .instr (.ldI (fieldNNN w))) ∧
    (w.extractLsb' 12 4 = 0xF#4 → w.extractLsb' 0 8 = 0x29#8 → decode w = .instr (.ldFont (fieldX w)))) ∧
  ∀ (nnn : Addr) (x : Reg) (s : State),
    exec (.ldI nnn) s = .next { s with i := BitVec.ofNat 16 nnn.toNat } ∧
    exec (.ldFont x) s = .next { s with i := BitVec.ofNat 16 (0x050 + 5 * s.v[x].toNat) } ∧
    0x050 + 5 * s.v[x].toNat ≤ 0x54B

/-- R221: FX1E adds V[X] to I and writes no flag; a sum above 0xFFFF raises INDEX_OVERFLOW. -/
def Obligations.AddToIndexOrOverflow : Prop :=
  (∀ w : Word, w.extractLsb' 12 4 = 0xF#4 → w.extractLsb' 0 8 = 0x1E#8 → decode w = .instr (.addI (fieldX w))) ∧
  (∀ (x : Reg) (s : State), s.i.toNat + s.v[x].toNat ≤ 0xFFFF →
    exec (.addI x) s = .next { s with i := BitVec.ofNat 16 (s.i.toNat + s.v[x].toNat) }) ∧
  ∀ (x : Reg) (s : State) (c : CycleContext), 0xFFFF < s.i.toNat + s.v[x].toNat → s.inCycle = some c →
    exec (.addI x) s = .next { s with toArch := c.start.faulted .indexOverflow (some s.opcode) }

/-- R223: FX33 stores the three digits at I, I + 1, I + 2 and changes no other byte and no other element; it raises
ADDRESS_FAULT if I + 2 >= 0x1000. -/
def Obligations.BcdStoresThreeDigits : Prop :=
  (∀ w : Word, w.extractLsb' 12 4 = 0xF#4 → w.extractLsb' 0 8 = 0x33#8 → decode w = .instr (.ldBcd (fieldX w))) ∧
  (∀ (x : Reg) (s : State), s.i.toNat + 2 < 0x1000 →
    ∃ t, exec (.ldBcd x) s = .next t ∧ t = { s with mem := t.mem } ∧
      (Memory.wf s.font s.mem = true →
        t.byteAt s.i.toNat = BitVec.ofNat 8 (s.v[x].toNat / 100) ∧
        t.byteAt (s.i.toNat + 1) = BitVec.ofNat 8 (s.v[x].toNat / 10 % 10) ∧
        t.byteAt (s.i.toNat + 2) = BitVec.ofNat 8 (s.v[x].toNat % 10) ∧
        ∀ a, a < s.i.toNat ∨ s.i.toNat + 2 < a → t.byteAt a = s.byteAt a)) ∧
  ∀ (x : Reg) (s : State) (c : CycleContext), 0x1000 ≤ s.i.toNat + 2 → s.inCycle = some c →
    exec (.ldBcd x) s = .next { s with toArch := c.start.faulted .addressFault (some s.opcode) }

/-- R224: FX55 stores V0..VX at I..I+X and changes no other byte and no other element, I included; it raises ADDRESS_FAULT
if I + X >= 0x1000. -/
def Obligations.StoreRegistersToMemory : Prop :=
  (∀ w : Word, w.extractLsb' 12 4 = 0xF#4 → w.extractLsb' 0 8 = 0x55#8 → decode w = .instr (.storeRegs (fieldX w))) ∧
  (∀ (x : Reg) (s : State), s.i.toNat + x.val < 0x1000 →
    ∃ t, exec (.storeRegs x) s = .next t ∧ t = { s with mem := t.mem } ∧
      (Memory.wf s.font s.mem = true →
        (∀ k : Reg, k ≤ x → t.byteAt (s.i.toNat + k.val) = s.v[k]) ∧
        ∀ a, a < s.i.toNat ∨ s.i.toNat + x.val < a → t.byteAt a = s.byteAt a)) ∧
  ∀ (x : Reg) (s : State) (c : CycleContext), 0x1000 ≤ s.i.toNat + x.val → s.inCycle = some c →
    exec (.storeRegs x) s = .next { s with toArch := c.start.faulted .addressFault (some s.opcode) }

/-- R225: FX65 loads V0..VX from I..I+X and changes no other register and no other element, I included; it raises
ADDRESS_FAULT if I + X >= 0x1000. -/
def Obligations.LoadRegistersFromMemory : Prop :=
  (∀ w : Word, w.extractLsb' 12 4 = 0xF#4 → w.extractLsb' 0 8 = 0x65#8 → decode w = .instr (.loadRegs (fieldX w))) ∧
  (∀ (x : Reg) (s : State), s.i.toNat + x.val < 0x1000 →
    ∃ t, exec (.loadRegs x) s = .next t ∧ t = { s with v := t.v } ∧
      ∀ k : Reg, t.v[k] = if k ≤ x then s.byteAt (s.i.toNat + k.val) else s.v[k]) ∧
  ∀ (x : Reg) (s : State) (c : CycleContext), 0x1000 ≤ s.i.toNat + x.val → s.inCycle = some c →
    exec (.loadRegs x) s = .next { s with toArch := c.start.faulted .addressFault (some s.opcode) }

/-- FX55 then FX65 with the same X and I leaves every register and I, and every other element but memory, as they were
before FX55; FX65 changes nothing in the state FX55 leaves. -/
def Obligations.StoreThenLoadRoundTrips : Prop :=
  ∀ (x : Reg) (s : State), s.i.toNat + x.val < 0x1000 → Memory.wf s.font s.mem = true →
    ∃ t, exec (.storeRegs x) s = .next t ∧ exec (.loadRegs x) t = .next t ∧
      t.v = s.v ∧ t.i = s.i ∧ t = { s with mem := t.mem }

/-- A store is seen by the next fetch: after FX55, the word at two of the stored addresses is the two registers, the
lower-addressed one in the high byte. -/
def Obligations.StoredRegistersAreFetched : Prop :=
  ∀ (x : Reg) (s t : State) (k : Fin 15) (pc : Word), Memory.wf s.font s.mem = true →
    s.i.toNat + x.val < 0x1000 → k.val + 1 ≤ x.val → pc.toNat = s.i.toNat + k.val →
    exec (.storeRegs x) s = .next t →
    ({ t with pc := pc } : State).fetchWord = some (s.v[k.castSucc] ++ s.v[k.succ])

/-! ### Display (spec/44_display.md) -/

/-- R251: 00E0 turns every pixel off and changes nothing else. -/
def Obligations.ClearTurnsEveryPixelOff : Prop :=
  decode 0x00E0 = .instr .cls ∧
  ∀ s : State, ∃ t, exec .cls s = .next t ∧ t = { s with display := t.display } ∧
    ∀ (px : Fin 64) (py : Fin 32), t.display[py][px] = false

/-- R253, R254, R255: DXYN inverts exactly the pixels under the sprite's set bits, each wrapped on its own, and sets VF,
last, to whether one of them was on; it changes nothing else, and raises ADDRESS_FAULT if a sprite byte is outside memory.
This is the algorithm of R252; that rule's remark on a second draw is notes/assumptions/11.md. -/
def Obligations.DrawInvertsThePixelsUnderTheSprite : Prop :=
  (∀ w : Word, w.extractLsb' 12 4 = 0xD#4 → decode w = .instr (.drw (fieldX w) (fieldY w) (fieldN w))) ∧
  (∀ (x y : Reg) (n : Fin 16) (s : State), n.val = 0 ∨ s.i.toNat + n.val - 1 < 0x1000 →
    ∃ t, exec (.drw x y n) s = .next t ∧ t = { s with v := t.v, display := t.display } ∧
      (∀ (px : Fin 64) (py : Fin 32),
        (s.SpriteCovers x y n px py → t.display[py][px] = !s.display[py][px]) ∧
        (¬ s.SpriteCovers x y n px py → t.display[py][px] = s.display[py][px])) ∧
      ((∃ (px : Fin 64) (py : Fin 32), s.display[py][px] = true ∧ s.SpriteCovers x y n px py) →
        t.v = s.v.set 15 1) ∧
      ((∀ (px : Fin 64) (py : Fin 32), s.display[py][px] = true → ¬ s.SpriteCovers x y n px py) →
        t.v = s.v.set 15 0)) ∧
  ∀ (x y : Reg) (n : Fin 16) (s : State) (c : CycleContext), 1 ≤ n.val → 0x1000 ≤ s.i.toNat + n.val - 1 →
    s.inCycle = some c →
    exec (.drw x y n) s = .next { s with toArch := c.start.faulted .addressFault (some s.opcode) }

/-- Drawing the same sprite twice at the same place restores every pixel; the second draw collides iff the sprite has a set
bit on a pixel that was off before the first. X and Y are not VF, which the first draw writes. The condition on VF is the
model's reading (DEDUCED, notes/assumptions/11.md): the draw algorithm and C6 of spec/90_conflicts.md, not the shorter wording
of a corner case of R252, which names a set bit alone. -/
def Obligations.DrawingTwiceRestoresTheDisplay : Prop :=
  ∀ (x y : Reg) (n : Fin 16) (s : State), x ≠ 15 → y ≠ 15 → n.val = 0 ∨ s.i.toNat + n.val - 1 < 0x1000 →
    ∃ t u, exec (.drw x y n) s = .next t ∧ exec (.drw x y n) t = .next u ∧ u.display = s.display ∧
      (u.v[15] = 1 ↔ ∃ (px : Fin 64) (py : Fin 32), s.SpriteCovers x y n px py ∧ s.display[py][px] = false)

/-! ### Keypad and timers (spec/45_timers_keys.md) -/

/-- R270, R271: EX9E skips iff key V[X] is pressed, EXA1 iff it is not; V[X] above 15 raises KEY_INDEX_FAULT. -/
def Obligations.KeySkips : Prop :=
  (∀ w : Word, w.extractLsb' 12 4 = 0xE#4 →
    (w.extractLsb' 0 8 = 0x9E#8 → decode w = .instr (.skp (fieldX w))) ∧
    (w.extractLsb' 0 8 = 0xA1#8 → decode w = .instr (.sknp (fieldX w)))) ∧
  (∀ (x : Reg) (s : State) (k : Fin 16), s.v[x].toNat = k.val →
    exec (.skp x) s = .next { s with pc := if s.keypad[k] then s.pc + 2 else s.pc } ∧
    exec (.sknp x) s = .next { s with pc := if s.keypad[k] then s.pc else s.pc + 2 }) ∧
  ∀ (x : Reg) (s : State) (c : CycleContext), 15 < s.v[x].toNat → s.inCycle = some c →
    exec (.skp x) s = .next { s with toArch := c.start.faulted .keyIndexFault (some s.opcode) } ∧
    exec (.sknp x) s = .next { s with toArch := c.start.faulted .keyIndexFault (some s.opcode) }

/-- R273: FX0A stores the lowest pressed key; with none pressed PC goes back by 2, and the waiting cycle is an ordinary one:
it leaves PC at the FX0A, rewrites OPCODE, decrements the timers and changes nothing else. -/
def Obligations.KeyWaitTakesTheLowestKeyOrRewinds : Prop :=
  (∀ w : Word, w.extractLsb' 12 4 = 0xF#4 → w.extractLsb' 0 8 = 0x0A#8 → decode w = .instr (.ldKey (fieldX w))) ∧
  (∀ (x : Reg) (s : State),
    (∀ k : Fin 16, s.keypad[k] = true → (∀ j : Fin 16, j < k → s.keypad[j] = false) →
      exec (.ldKey x) s = .next { s with v := s.v.set x (BitVec.ofNat 8 k.val) }) ∧
    ((∀ k : Fin 16, s.keypad[k] = false) → exec (.ldKey x) s = .next { s with pc := s.pc - 2 })) ∧
  ∀ (s s' : State) (keys : Vector Bool 16) (rnd : Byte) (x : Reg), s.HostCycle keys rnd s' → s.halted = false →
    s.pc.toNat ≤ 0x0FFE → decode s.wordAtPc = .instr (.ldKey x) → (∀ k : Fin 16, keys[k] = false) →
    step s = .next { s' with
      keypad := keys, opcode := s.wordAtPc, dt := decremented s.dt, st := decremented s.st
      inCycle := none, out := .quiet }

/-- R272, R274, R275: FX07 reads DT, FX15 and FX18 write DT and ST; the same cycle's decrement comes after, so a timer
written with x ends the cycle at x - 1, or at 0 if x = 0. -/
def Obligations.TimerInstructions : Prop :=
  (∀ w : Word, w.extractLsb' 12 4 = 0xF#4 →
    (w.extractLsb' 0 8 = 0x07#8 → decode w = .instr (.ldVxDt (fieldX w))) ∧
    (w.extractLsb' 0 8 = 0x15#8 → decode w = .instr (.ldDtVx (fieldX w))) ∧
    (w.extractLsb' 0 8 = 0x18#8 → decode w = .instr (.ldStVx (fieldX w)))) ∧
  ∀ (x : Reg) (s : State),
    exec (.ldVxDt x) s = .next { s with v := s.v.set x s.dt } ∧
    exec (.ldDtVx x) s = .next { s with dt := s.v[x] } ∧
    exec (.ldStVx x) s = .next { s with st := s.v[x] } ∧
    (s.halted = false →
      ({ s with v := s.v.set x s.dt } : State).endCycle.dt = decremented s.dt ∧
      ({ s with dt := s.v[x] } : State).endCycle.dt = decremented s.v[x] ∧
      ({ s with st := s.v[x] } : State).endCycle.st = decremented s.v[x])

/-- R349: the cycle that executes FX15 or FX18 also decrements the timer it has just written. -/
def Obligations.TimerWriteIsDecrementedInItsOwnCycle : Prop :=
  ∀ (s s' t : State) (keys : Vector Bool 16) (rnd : Byte) (x : Reg), s.HostCycle keys rnd s' → s.halted = false →
    s.pc.toNat ≤ 0x0FFE → step s = .next t →
    (decode s.wordAtPc = .instr (.ldDtVx x) → t.dt.toNat = s.v[x].toNat - 1) ∧
    (decode s.wordAtPc = .instr (.ldStVx x) → t.st.toNat = s.v[x].toNat - 1) ∧
    (decode s.wordAtPc = .instr (.ldVxDt x) → t.v[x] = s.dt ∧ t.dt.toNat = s.dt.toNat - 1)
end

