-- ==== Sys2Proof/Laws/Decode.lean ====
section
/-! SUPPORT. The laws of the decoder: the rows of the table are disjoint (spec/30_encoding.md R95), so a word that selects a
row decodes to that row's instruction; and what each encoded format reads as under the masks and the fields. -/

namespace Sys2Proof

/-- A bit in both masks on which two rows differ. -/
def Row.disjoint (r r' : Row) : Prop := (r.mtch ^^^ r'.mtch) &&& r.mask &&& r'.mask ≠ 0

theorem opcodeTable_disjoint : opcodeTable.Pairwise Row.disjoint := by
  unfold Row.disjoint
  decide

theorem Row.not_both_select {r r' : Row} {w : Word} (hd : r.disjoint r') (h : r.selects w = true)
    (h' : r'.selects w = true) : False := by
  apply hd
  simp only [Row.selects, beq_iff_eq] at h h'
  rw [← h, ← h']
  ext i
  simp only [BitVec.getElem_and, BitVec.getElem_xor]
  cases w[i] <;> cases r.mask[i] <;> cases r'.mask[i] <;> simp

theorem Row.disjoint_symm {r r' : Row} (h : r.disjoint r') : r'.disjoint r := by
  unfold Row.disjoint at *
  rwa [BitVec.xor_comm, BitVec.and_assoc, BitVec.and_comm r'.mask, ← BitVec.and_assoc]

/-- In a list of disjoint rows, a word selects at most one. -/
theorem Row.eq_of_pairwise {rows : List Row} (hrows : rows.Pairwise Row.disjoint) {r r' : Row} {w : Word}
    (hr : r ∈ rows) (hr' : r' ∈ rows) (h : r.selects w = true) (h' : r'.selects w = true) : r = r' := by
  by_contra hne
  have : Std.Symm Row.disjoint := ⟨fun _ _ => Row.disjoint_symm⟩
  exact Row.not_both_select (hrows.forall hr hr' hne) h h'

/-- A word that selects a row decodes to that row's instruction. -/
theorem decode_of_selects {r : Row} {w : Word} (hr : r ∈ opcodeTable) (h : r.selects w = true) :
    decode w = .instr (r.build w) := by
  unfold decode
  cases hf : opcodeTable.find? (·.selects w) with
  | none => exact absurd h (by simpa using List.find?_eq_none.1 hf r hr)
  | some r' =>
    rw [Row.eq_of_pairwise opcodeTable_disjoint hr (List.mem_of_find?_eq_some hf) h
      (List.find?_some (p := fun r : Row => r.selects w) hf)]

/-- A decoded instruction comes from a row the word selects. -/
theorem decode_eq_instr {w : Word} {i : Instr} (h : decode w = .instr i) :
    ∃ r ∈ opcodeTable, r.selects w = true ∧ i = r.build w := by
  unfold decode at h
  split at h
  · rename_i r hf
    exact ⟨r, List.mem_of_find?_eq_some hf, List.find?_some (p := fun r : Row => r.selects w) hf, (Decoded.instr.inj h).symm⟩
  · cases h

/-- The unknown variant carries the word, which selects no row (R97). -/
theorem decode_eq_unknown {w u : Word} (h : decode w = .unknown u) :
    u = w ∧ ∀ r ∈ opcodeTable, r.selects w = false := by
  unfold decode at h
  split at h
  · cases h
  · rename_i hf
    exact ⟨(Decoded.unknown.inj h).symm, fun r hr => by simpa using List.find?_eq_none.1 hf r hr⟩

variable (op n : BitVec 4) (x y : Reg) (nn sub8 : Byte) (nnn : Addr)

theorem encodeNNN_mask : encodeNNN op nnn &&& 0xF000 = op ++ 0#12 := by
  ext i hi
  simp only [encodeNNN, BitVec.getElem_and, BitVec.getElem_append]
  interval_cases i <;> simp

theorem encodeXNN_mask : encodeXNN op x nn &&& 0xF000 = op ++ 0#12 := by
  ext i hi
  simp only [encodeXNN, BitVec.getElem_and, BitVec.getElem_append]
  interval_cases i <;> simp

theorem encodeXYN_mask : encodeXYN op x y n &&& 0xF000 = op ++ 0#12 := by
  ext i hi
  simp only [encodeXYN, BitVec.getElem_and, BitVec.getElem_append]
  interval_cases i <;> simp

theorem encodeXYN_mask_sub : encodeXYN op x y n &&& 0xF00F = op ++ 0#8 ++ n := by
  ext i hi
  simp only [encodeXYN, BitVec.getElem_and, BitVec.getElem_append]
  interval_cases i <;> simp

theorem encodeXs_mask : encodeXs op x sub8 &&& 0xF0FF = op ++ 0#4 ++ sub8 := by
  ext i hi
  simp only [encodeXs, BitVec.getElem_and, BitVec.getElem_append]
  interval_cases i <;> simp

theorem toFin_nibble (b : BitVec 4) (h : b = nibble x) : (b.toFin : Fin 16) = x := by
  subst h
  rfl

@[simp] theorem fieldNNN_encodeNNN : fieldNNN (encodeNNN op nnn) = nnn := by
  unfold fieldNNN encodeNNN
  ext i hi
  simp only [BitVec.getElem_extractLsb', BitVec.getLsbD_append]
  interval_cases i <;> simp [BitVec.getLsbD_eq_getElem]

@[simp] theorem fieldX_encodeXNN : fieldX (encodeXNN op x nn) = x := by
  refine toFin_nibble _ _ ?_
  unfold encodeXNN
  ext i hi
  simp only [BitVec.getElem_extractLsb', BitVec.getLsbD_append]
  interval_cases i <;> simp [BitVec.getLsbD_eq_getElem]

@[simp] theorem fieldNN_encodeXNN : fieldNN (encodeXNN op x nn) = nn := by
  unfold fieldNN encodeXNN
  ext i hi
  simp only [BitVec.getElem_extractLsb', BitVec.getLsbD_append]
  interval_cases i <;> simp [BitVec.getLsbD_eq_getElem]

@[simp] theorem fieldX_encodeXYN : fieldX (encodeXYN op x y n) = x := by
  refine toFin_nibble _ _ ?_
  unfold encodeXYN
  ext i hi
  simp only [BitVec.getElem_extractLsb', BitVec.getLsbD_append]
  interval_cases i <;> simp [BitVec.getLsbD_eq_getElem]

@[simp] theorem fieldY_encodeXYN : fieldY (encodeXYN op x y n) = y := by
  refine toFin_nibble _ _ ?_
  unfold encodeXYN
  ext i hi
  simp only [BitVec.getElem_extractLsb', BitVec.getLsbD_append]
  interval_cases i <;> simp [BitVec.getLsbD_eq_getElem]

@[simp] theorem fieldN_encodeXYN (m : Fin 16) : fieldN (encodeXYN op x y (nibble m)) = m := by
  refine toFin_nibble _ _ ?_
  unfold encodeXYN
  ext i hi
  simp only [BitVec.getElem_extractLsb', BitVec.getLsbD_append]
  interval_cases i <;> simp [BitVec.getLsbD_eq_getElem]

@[simp] theorem fieldX_encodeXs : fieldX (encodeXs op x sub8) = x := by
  refine toFin_nibble _ _ ?_
  unfold encodeXs
  ext i hi
  simp only [BitVec.getElem_extractLsb', BitVec.getLsbD_append]
  interval_cases i <;> simp [BitVec.getLsbD_eq_getElem]

/-! ### A word by its fields -/

variable (w : Word)

theorem and_F000 : w &&& 0xF000 = w.extractLsb' 12 4 ++ 0#12 := by
  ext i hi
  simp only [BitVec.getElem_and, BitVec.getElem_append]
  interval_cases i <;> simp [BitVec.getLsbD_eq_getElem]

theorem and_F00F : w &&& 0xF00F = w.extractLsb' 12 4 ++ 0#8 ++ w.extractLsb' 0 4 := by
  ext i hi
  simp only [BitVec.getElem_and, BitVec.getElem_append]
  interval_cases i <;> simp [BitVec.getLsbD_eq_getElem]

theorem and_F0FF : w &&& 0xF0FF = w.extractLsb' 12 4 ++ 0#4 ++ w.extractLsb' 0 8 := by
  ext i hi
  simp only [BitVec.getElem_and, BitVec.getElem_append]
  interval_cases i <;> simp [BitVec.getLsbD_eq_getElem]

/-- Every word is the NNN format of its own op and NNN fields. -/
theorem encodeNNN_fields : encodeNNN (w.extractLsb' 12 4) (fieldNNN w) = w := by
  unfold encodeNNN fieldNNN
  ext i hi
  simp only [BitVec.getElem_append]
  interval_cases i <;> simp [BitVec.getLsbD_eq_getElem]

theorem nibble_fieldX : nibble (fieldX w) = w.extractLsb' 8 4 := rfl

theorem nibble_fieldY : nibble (fieldY w) = w.extractLsb' 4 4 := rfl

theorem nibble_fieldN : nibble (fieldN w) = w.extractLsb' 0 4 := rfl

/-- Every word is the XNN format of its own op, X and NN fields. -/
theorem encodeXNN_fields : encodeXNN (w.extractLsb' 12 4) (fieldX w) (fieldNN w) = w := by
  unfold encodeXNN fieldNN
  rw [nibble_fieldX]
  ext i hi
  simp only [BitVec.getElem_append]
  interval_cases i <;> simp [BitVec.getLsbD_eq_getElem]

/-- Every word is the XYN format of its own op, X, Y and last-nibble fields. -/
theorem encodeXYN_fields : encodeXYN (w.extractLsb' 12 4) (fieldX w) (fieldY w) (w.extractLsb' 0 4) = w := by
  unfold encodeXYN
  rw [nibble_fieldX, nibble_fieldY]
  ext i hi
  simp only [BitVec.getElem_append]
  interval_cases i <;> simp [BitVec.getLsbD_eq_getElem]

/-- Every word is the Xs format of its own op, X and sub8 fields. -/
theorem encodeXs_fields : encodeXs (w.extractLsb' 12 4) (fieldX w) (w.extractLsb' 0 8) = w := by
  unfold encodeXs
  rw [nibble_fieldX]
  ext i hi
  simp only [BitVec.getElem_append]
  interval_cases i <;> simp [BitVec.getLsbD_eq_getElem]

/-- The row at a place of the table, by its mask and match. -/
theorem decode_row {w : Word} (k : Fin 34) (h : w &&& (opcodeTable[k]'k.isLt).mask = (opcodeTable[k]'k.isLt).mtch) :
    decode w = .instr ((opcodeTable[k]'k.isLt).build w) :=
  decode_of_selects (List.getElem_mem k.isLt) (beq_iff_eq.2 h)

end Sys2Proof
end

