-- ==== Sys2Proof/Laws/Memory.lean ====
section
/-! SUPPORT. The laws of memory: a read after a write, what a write leaves alone, that every memory operation keeps the
canonical form, that equal contents are equal lists, and what the multi-byte accesses do. -/

namespace Sys2Proof.Machine

variable {font : Font} {m m' : Memory} {lo a b : Nat} {v : Byte}

theorem Memory.wfFrom_cons {u : Byte} {rest : Memory} :
    Memory.wfFrom font lo ((a, u) :: rest) = true ↔
      lo ≤ a ∧ a < 4096 ∧ u ≠ Memory.unlisted font a ∧ Memory.wfFrom font (a + 1) rest = true := by
  simp only [Memory.wfFrom, Bool.and_eq_true, decide_eq_true_eq, and_assoc]
  exact Iff.rfl

theorem Memory.wfFrom_mono {lo' : Nat} (hle : lo' ≤ lo) (h : Memory.wfFrom font lo m = true) :
    Memory.wfFrom font lo' m = true := by
  cases m with
  | nil => rfl
  | cons c rest =>
    rw [Memory.wfFrom_cons] at h ⊢
    exact ⟨by omega, h.2⟩

theorem Memory.lookup_eq_none_of_lt (h : Memory.wfFrom font lo m = true) (hlt : a < lo) :
    Memory.lookup m a = none := by
  induction m generalizing lo with
  | nil => rfl
  | cons c rest ih =>
    obtain ⟨b, u⟩ := c
    rw [Memory.wfFrom_cons] at h
    rw [Memory.lookup, if_neg (by omega)]
    exact ih h.2.2.2 (by omega)

theorem Memory.lookup_put : Memory.lookup (Memory.put m a v) b = if b = a then some v else Memory.lookup m b := by
  induction m with
  | nil => simp [Memory.put, Memory.lookup, eq_comm]
  | cons c rest ih =>
    obtain ⟨d, u⟩ := c
    rw [Memory.put]
    split
    · simp [Memory.lookup, eq_comm]
    · split
      · subst a
        simp only [Memory.lookup]
        split <;> simp_all [eq_comm]
      · simp only [Memory.lookup, ih]
        split <;> split <;> simp_all

theorem Memory.lookup_erase (h : Memory.wfFrom font lo m = true) :
    Memory.lookup (Memory.erase m a) b = if b = a then none else Memory.lookup m b := by
  induction m generalizing lo with
  | nil => simp [Memory.erase, Memory.lookup]
  | cons c rest ih =>
    obtain ⟨d, u⟩ := c
    rw [Memory.wfFrom_cons] at h
    rw [Memory.erase]
    split
    · subst d
      rw [Memory.lookup]
      by_cases hb : b = a
      · subst b
        rw [if_pos rfl, Memory.lookup_eq_none_of_lt h.2.2.2 (Nat.lt_succ_self a)]
      · rw [if_neg hb, if_neg (Ne.symm hb)]
    · simp only [Memory.lookup, ih h.2.2.2]
      split <;> split <;> simp_all

/-- "Every read returns the value of the most recent write to that address" (spec/20_memory.md R73), and a write leaves
every other address alone. -/
theorem Memory.read_write (h : Memory.wf font m = true) :
    Memory.read font (Memory.write font m a v) b = if b = a then v else Memory.read font m b := by
  have hl : Memory.lookup (Memory.write font m a v) b =
      if b = a then (if v = Memory.unlisted font a then none else some v) else Memory.lookup m b := by
    unfold Memory.write
    split
    · rw [Memory.lookup_erase h]
    · rw [Memory.lookup_put]
  unfold Memory.read
  rw [hl]
  by_cases hb : b = a
  · subst b
    by_cases hv : v = Memory.unlisted font a <;> simp [hv]
  · simp [hb]

theorem Memory.wfFrom_put (h : Memory.wfFrom font lo m = true) (hlo : lo ≤ a) (ha : a < 4096)
    (hv : v ≠ Memory.unlisted font a) : Memory.wfFrom font lo (Memory.put m a v) = true := by
  induction m generalizing lo with
  | nil => exact Memory.wfFrom_cons.2 ⟨hlo, ha, hv, rfl⟩
  | cons c rest ih =>
    obtain ⟨d, u⟩ := c
    have hc := Memory.wfFrom_cons.1 h
    rw [Memory.put]
    split
    · exact Memory.wfFrom_cons.2 ⟨hlo, ha, hv, Memory.wfFrom_cons.2 ⟨by omega, hc.2⟩⟩
    · split
      · subst d
        exact Memory.wfFrom_cons.2 ⟨hlo, ha, hv, hc.2.2.2⟩
      · exact Memory.wfFrom_cons.2 ⟨hc.1, hc.2.1, hc.2.2.1, ih hc.2.2.2 (by omega)⟩

theorem Memory.wfFrom_erase (h : Memory.wfFrom font lo m = true) :
    Memory.wfFrom font lo (Memory.erase m a) = true := by
  induction m generalizing lo with
  | nil => rfl
  | cons c rest ih =>
    obtain ⟨d, u⟩ := c
    have hc := Memory.wfFrom_cons.1 h
    rw [Memory.erase]
    split
    · exact Memory.wfFrom_mono (by omega) hc.2.2.2
    · exact Memory.wfFrom_cons.2 ⟨hc.1, hc.2.1, hc.2.2.1, ih hc.2.2.2⟩

/-- A write to an address that exists keeps the canonical form. -/
theorem Memory.wf_write (h : Memory.wf font m = true) (ha : a < 4096) :
    Memory.wf font (Memory.write font m a v) = true := by
  unfold Memory.write
  split
  · exact Memory.wfFrom_erase h
  · exact Memory.wfFrom_put h (Nat.zero_le a) ha ‹_›

/-- Copying bytes in keeps the canonical form. -/
theorem Memory.wf_copyIn (bs : List Byte) (h : Memory.wf font m = true) (ha : a + bs.length ≤ 4096) :
    Memory.wf font (Memory.copyIn font m a bs) = true := by
  induction bs generalizing m a with
  | nil => exact h
  | cons c bs ih =>
    rw [List.length_cons] at ha
    exact ih (Memory.wf_write h (by omega)) (by omega)

/-- What memory holds after bytes are copied in: those bytes at their addresses, and every other address as before. -/
theorem Memory.read_copyIn (bs : List Byte) (h : Memory.wf font m = true) (ha : a + bs.length ≤ 4096) :
    Memory.read font (Memory.copyIn font m a bs) b =
      if a ≤ b ∧ b < a + bs.length then bs.getD (b - a) 0 else Memory.read font m b := by
  induction bs generalizing m a with
  | nil => rw [if_neg (by simp)]; rfl
  | cons c bs ih =>
    rw [List.length_cons] at ha ⊢
    rw [Memory.copyIn, ih (Memory.wf_write h (by omega)) (by omega), Memory.read_write h]
    by_cases hb : b = a
    · subst b
      rw [if_neg (by omega), if_pos rfl, if_pos (by omega), Nat.sub_self]
      rfl
    · by_cases hin : a + 1 ≤ b ∧ b < a + 1 + bs.length
      · rw [if_pos hin, if_pos (by omega), show b - a = b - (a + 1) + 1 by omega, List.getD_cons_succ]
      · rw [if_neg hin, if_neg hb, if_neg (by omega)]

theorem Memory.read_cons_ne {u : Byte} (h : b ≠ a) :
    Memory.read font ((a, u) :: m) b = Memory.read font m b := by
  simp [Memory.read, Memory.lookup, Ne.symm h]

theorem Memory.read_of_lt (h : Memory.wfFrom font lo m = true) (hlt : a < lo) :
    Memory.read font m a = Memory.unlisted font a := by
  rw [Memory.read, Memory.lookup_eq_none_of_lt h hlt]

theorem Memory.read_head {u : Byte} : Memory.read font ((a, u) :: m) a = u := by
  simp [Memory.read, Memory.lookup]

/-- Equal contents are equal lists: memory has one form for each content. -/
theorem Memory.eq_of_read_eq (h : Memory.wfFrom font lo m = true) (h' : Memory.wfFrom font lo m' = true)
    (heq : ∀ a, Memory.read font m a = Memory.read font m' a) : m = m' := by
  induction m generalizing lo m' with
  | nil =>
    cases m' with
    | nil => rfl
    | cons c rest =>
      obtain ⟨d, u⟩ := c
      have hc := Memory.wfFrom_cons.1 h'
      exact absurd ((Memory.read_head).symm.trans (heq d).symm) hc.2.2.1
  | cons c rest ih =>
    obtain ⟨d, u⟩ := c
    have hc := Memory.wfFrom_cons.1 h
    cases m' with
    | nil => exact absurd ((Memory.read_head).symm.trans (heq d)) hc.2.2.1
    | cons c' rest' =>
      obtain ⟨d', u'⟩ := c'
      have hc' := Memory.wfFrom_cons.1 h'
      have hd : d = d' := by
        rcases Nat.lt_trichotomy d d' with hlt | rfl | hlt
        · have := heq d
          rw [Memory.read_head, Memory.read_cons_ne (by omega),
            Memory.read_of_lt hc'.2.2.2 (by omega)] at this
          exact absurd this hc.2.2.1
        · rfl
        · have := heq d'
          rw [Memory.read_head, Memory.read_cons_ne (by omega),
            Memory.read_of_lt hc.2.2.2 (by omega)] at this
          exact absurd this.symm hc'.2.2.1
      subst d'
      have hu : u = u' := by simpa [Memory.read_head] using heq d
      subst u'
      have hrest : rest = rest' := by
        refine ih hc.2.2.2 hc'.2.2.2 fun a => ?_
        by_cases ha : a = d
        · subst a
          rw [Memory.read_of_lt hc.2.2.2 (by omega), Memory.read_of_lt hc'.2.2.2 (by omega)]
        · simpa [Memory.read_cons_ne ha] using heq a
      rw [hrest]

/-- A read succeeds exactly below 0x1000 (spec/20_memory.md R65). -/
theorem memRead_eq_some {s : State} (h : a < 4096) : s.memRead a = some (s.byteAt a) := by
  simp [State.memRead, Config.memSize, h]

theorem memRead_eq_none {s : State} (h : 4096 ≤ a) : s.memRead a = none := by
  simp [State.memRead, Config.memSize, Nat.not_lt.2 h]

/-- What a run of reads answers: the bytes in rising order, or none exactly when one of its addresses does not exist. -/
theorem memReads_eq (s : State) (a n : Nat) :
    s.memReads a n = if n = 0 ∨ a + n ≤ 4096 then some ((List.range' a n).map s.byteAt) else none := by
  induction n generalizing a with
  | zero => simp [State.memReads]
  | succ n ih =>
    rw [State.memReads]
    by_cases ha : a < 4096
    · rw [memRead_eq_some ha, ih]
      by_cases hn : n = 0 ∨ a + 1 + n ≤ 4096
      · rw [if_pos hn, if_pos (by omega)]
        rfl
      · rw [if_neg hn, if_neg (by omega)]
    · rw [memRead_eq_none (by omega), if_neg (by omega)]

/-- What a run of writes answers: the bytes copied in, or none exactly when one of its addresses does not exist. -/
theorem memWrites_eq (s : State) (a : Nat) (bs : List Byte) :
    s.memWrites a bs =
      if bs = [] ∨ a + bs.length ≤ 4096 then some (s.setMem (Memory.copyIn s.font s.mem a bs)) else none := by
  induction bs generalizing s a with
  | nil => simp [State.memWrites, Memory.copyIn, State.setMem]
  | cons b bs ih =>
    rw [State.memWrites]
    simp only [List.length_cons, reduceCtorEq, false_or]
    by_cases ha : a < 4096
    · rw [show s.memWrite a b = some (s.setMem (Memory.write s.font s.mem a b)) by
        simp [State.memWrite, Config.memSize, ha]]
      simp only [ih]
      by_cases hn : bs = [] ∨ a + 1 + bs.length ≤ 4096
      · have hlen : a + (bs.length + 1) ≤ 4096 := by
          rcases hn with rfl | hn
          · exact ha
          · omega
        rw [if_pos hn, if_pos hlen]
        rfl
      · rw [not_or] at hn
        rw [if_neg (not_or.2 hn), if_neg (by omega)]
    · rw [show s.memWrite a b = none by simp [State.memWrite, Config.memSize, ha], if_neg (by omega)]

/-- A run of writes changes memory only. -/
theorem memWrites_some {s t : State} {bs : List Byte} (h : s.memWrites a bs = some t) :
    t = s.setMem (Memory.copyIn s.font s.mem a bs) ∧ (bs = [] ∨ a + bs.length ≤ 4096) := by
  rw [memWrites_eq] at h
  split at h
  · exact ⟨(Option.some.inj h).symm, ‹_›⟩
  · cases h

end Sys2Proof.Machine
end

