-- ==== Sys2Proof/Laws/State.lean ====
section
/-! SUPPORT. What each named update of the state changes and what it leaves: one lemma for each field. Later proofs use these
and do not unfold a record update. -/

namespace Sys2Proof.Machine

/-! ### `V[r] <- b` -/

@[simp] theorem State.setReg_v (s : State) (r : Reg) (b : Byte) : (s.setReg r b).v = s.v.set r b := rfl
@[simp] theorem State.setReg_i (s : State) (r : Reg) (b : Byte) : (s.setReg r b).i = s.i := rfl
@[simp] theorem State.setReg_pc (s : State) (r : Reg) (b : Byte) : (s.setReg r b).pc = s.pc := rfl
@[simp] theorem State.setReg_sp (s : State) (r : Reg) (b : Byte) : (s.setReg r b).sp = s.sp := rfl
@[simp] theorem State.setReg_stack (s : State) (r : Reg) (b : Byte) : (s.setReg r b).stack = s.stack := rfl
@[simp] theorem State.setReg_dt (s : State) (r : Reg) (b : Byte) : (s.setReg r b).dt = s.dt := rfl
@[simp] theorem State.setReg_st (s : State) (r : Reg) (b : Byte) : (s.setReg r b).st = s.st := rfl
@[simp] theorem State.setReg_keypad (s : State) (r : Reg) (b : Byte) : (s.setReg r b).keypad = s.keypad := rfl
@[simp] theorem State.setReg_display (s : State) (r : Reg) (b : Byte) : (s.setReg r b).display = s.display := rfl
@[simp] theorem State.setReg_opcode (s : State) (r : Reg) (b : Byte) : (s.setReg r b).opcode = s.opcode := rfl
@[simp] theorem State.setReg_quirk (s : State) (r : Reg) (b : Byte) : (s.setReg r b).quirk = s.quirk := rfl
@[simp] theorem State.setReg_mem (s : State) (r : Reg) (b : Byte) : (s.setReg r b).mem = s.mem := rfl
@[simp] theorem State.setReg_halted (s : State) (r : Reg) (b : Byte) : (s.setReg r b).halted = s.halted := rfl
@[simp] theorem State.setReg_faultCause (s : State) (r : Reg) (b : Byte) : (s.setReg r b).faultCause = s.faultCause := rfl
@[simp] theorem State.setReg_faultPc (s : State) (r : Reg) (b : Byte) : (s.setReg r b).faultPc = s.faultPc := rfl
@[simp] theorem State.setReg_faultWord (s : State) (r : Reg) (b : Byte) : (s.setReg r b).faultWord = s.faultWord := rfl
@[simp] theorem State.setReg_font (s : State) (r : Reg) (b : Byte) : (s.setReg r b).font = s.font := rfl
@[simp] theorem State.setReg_pending (s : State) (r : Reg) (b : Byte) : (s.setReg r b).pending = s.pending := rfl
@[simp] theorem State.setReg_draws (s : State) (r : Reg) (b : Byte) : (s.setReg r b).draws = s.draws := rfl
@[simp] theorem State.setReg_inCycle (s : State) (r : Reg) (b : Byte) : (s.setReg r b).inCycle = s.inCycle := rfl
@[simp] theorem State.setReg_out (s : State) (r : Reg) (b : Byte) : (s.setReg r b).out = s.out := rfl

/-! ### The flag write of VF -/

@[simp] theorem State.setFlag_v (s : State) (c : Bool) : (s.setFlag c).v = s.v.set 15 (if c then 1 else 0) := rfl
@[simp] theorem State.setFlag_i (s : State) (c : Bool) : (s.setFlag c).i = s.i := rfl
@[simp] theorem State.setFlag_pc (s : State) (c : Bool) : (s.setFlag c).pc = s.pc := rfl
@[simp] theorem State.setFlag_sp (s : State) (c : Bool) : (s.setFlag c).sp = s.sp := rfl
@[simp] theorem State.setFlag_stack (s : State) (c : Bool) : (s.setFlag c).stack = s.stack := rfl
@[simp] theorem State.setFlag_dt (s : State) (c : Bool) : (s.setFlag c).dt = s.dt := rfl
@[simp] theorem State.setFlag_st (s : State) (c : Bool) : (s.setFlag c).st = s.st := rfl
@[simp] theorem State.setFlag_keypad (s : State) (c : Bool) : (s.setFlag c).keypad = s.keypad := rfl
@[simp] theorem State.setFlag_display (s : State) (c : Bool) : (s.setFlag c).display = s.display := rfl
@[simp] theorem State.setFlag_opcode (s : State) (c : Bool) : (s.setFlag c).opcode = s.opcode := rfl
@[simp] theorem State.setFlag_quirk (s : State) (c : Bool) : (s.setFlag c).quirk = s.quirk := rfl
@[simp] theorem State.setFlag_mem (s : State) (c : Bool) : (s.setFlag c).mem = s.mem := rfl
@[simp] theorem State.setFlag_halted (s : State) (c : Bool) : (s.setFlag c).halted = s.halted := rfl
@[simp] theorem State.setFlag_faultCause (s : State) (c : Bool) : (s.setFlag c).faultCause = s.faultCause := rfl
@[simp] theorem State.setFlag_faultPc (s : State) (c : Bool) : (s.setFlag c).faultPc = s.faultPc := rfl
@[simp] theorem State.setFlag_faultWord (s : State) (c : Bool) : (s.setFlag c).faultWord = s.faultWord := rfl
@[simp] theorem State.setFlag_font (s : State) (c : Bool) : (s.setFlag c).font = s.font := rfl
@[simp] theorem State.setFlag_pending (s : State) (c : Bool) : (s.setFlag c).pending = s.pending := rfl
@[simp] theorem State.setFlag_draws (s : State) (c : Bool) : (s.setFlag c).draws = s.draws := rfl
@[simp] theorem State.setFlag_inCycle (s : State) (c : Bool) : (s.setFlag c).inCycle = s.inCycle := rfl
@[simp] theorem State.setFlag_out (s : State) (c : Bool) : (s.setFlag c).out = s.out := rfl

/-! ### `I <- a` -/

@[simp] theorem State.setIndex_v (s : State) (a : Word) : (s.setIndex a).v = s.v := rfl
@[simp] theorem State.setIndex_i (s : State) (a : Word) : (s.setIndex a).i = a := rfl
@[simp] theorem State.setIndex_pc (s : State) (a : Word) : (s.setIndex a).pc = s.pc := rfl
@[simp] theorem State.setIndex_sp (s : State) (a : Word) : (s.setIndex a).sp = s.sp := rfl
@[simp] theorem State.setIndex_stack (s : State) (a : Word) : (s.setIndex a).stack = s.stack := rfl
@[simp] theorem State.setIndex_dt (s : State) (a : Word) : (s.setIndex a).dt = s.dt := rfl
@[simp] theorem State.setIndex_st (s : State) (a : Word) : (s.setIndex a).st = s.st := rfl
@[simp] theorem State.setIndex_keypad (s : State) (a : Word) : (s.setIndex a).keypad = s.keypad := rfl
@[simp] theorem State.setIndex_display (s : State) (a : Word) : (s.setIndex a).display = s.display := rfl
@[simp] theorem State.setIndex_opcode (s : State) (a : Word) : (s.setIndex a).opcode = s.opcode := rfl
@[simp] theorem State.setIndex_quirk (s : State) (a : Word) : (s.setIndex a).quirk = s.quirk := rfl
@[simp] theorem State.setIndex_mem (s : State) (a : Word) : (s.setIndex a).mem = s.mem := rfl
@[simp] theorem State.setIndex_halted (s : State) (a : Word) : (s.setIndex a).halted = s.halted := rfl
@[simp] theorem State.setIndex_faultCause (s : State) (a : Word) : (s.setIndex a).faultCause = s.faultCause := rfl
@[simp] theorem State.setIndex_faultPc (s : State) (a : Word) : (s.setIndex a).faultPc = s.faultPc := rfl
@[simp] theorem State.setIndex_faultWord (s : State) (a : Word) : (s.setIndex a).faultWord = s.faultWord := rfl
@[simp] theorem State.setIndex_font (s : State) (a : Word) : (s.setIndex a).font = s.font := rfl
@[simp] theorem State.setIndex_pending (s : State) (a : Word) : (s.setIndex a).pending = s.pending := rfl
@[simp] theorem State.setIndex_draws (s : State) (a : Word) : (s.setIndex a).draws = s.draws := rfl
@[simp] theorem State.setIndex_inCycle (s : State) (a : Word) : (s.setIndex a).inCycle = s.inCycle := rfl
@[simp] theorem State.setIndex_out (s : State) (a : Word) : (s.setIndex a).out = s.out := rfl

/-! ### `DT <- b` -/

@[simp] theorem State.setDelay_v (s : State) (b : Byte) : (s.setDelay b).v = s.v := rfl
@[simp] theorem State.setDelay_i (s : State) (b : Byte) : (s.setDelay b).i = s.i := rfl
@[simp] theorem State.setDelay_pc (s : State) (b : Byte) : (s.setDelay b).pc = s.pc := rfl
@[simp] theorem State.setDelay_sp (s : State) (b : Byte) : (s.setDelay b).sp = s.sp := rfl
@[simp] theorem State.setDelay_stack (s : State) (b : Byte) : (s.setDelay b).stack = s.stack := rfl
@[simp] theorem State.setDelay_dt (s : State) (b : Byte) : (s.setDelay b).dt = b := rfl
@[simp] theorem State.setDelay_st (s : State) (b : Byte) : (s.setDelay b).st = s.st := rfl
@[simp] theorem State.setDelay_keypad (s : State) (b : Byte) : (s.setDelay b).keypad = s.keypad := rfl
@[simp] theorem State.setDelay_display (s : State) (b : Byte) : (s.setDelay b).display = s.display := rfl
@[simp] theorem State.setDelay_opcode (s : State) (b : Byte) : (s.setDelay b).opcode = s.opcode := rfl
@[simp] theorem State.setDelay_quirk (s : State) (b : Byte) : (s.setDelay b).quirk = s.quirk := rfl
@[simp] theorem State.setDelay_mem (s : State) (b : Byte) : (s.setDelay b).mem = s.mem := rfl
@[simp] theorem State.setDelay_halted (s : State) (b : Byte) : (s.setDelay b).halted = s.halted := rfl
@[simp] theorem State.setDelay_faultCause (s : State) (b : Byte) : (s.setDelay b).faultCause = s.faultCause := rfl
@[simp] theorem State.setDelay_faultPc (s : State) (b : Byte) : (s.setDelay b).faultPc = s.faultPc := rfl
@[simp] theorem State.setDelay_faultWord (s : State) (b : Byte) : (s.setDelay b).faultWord = s.faultWord := rfl
@[simp] theorem State.setDelay_font (s : State) (b : Byte) : (s.setDelay b).font = s.font := rfl
@[simp] theorem State.setDelay_pending (s : State) (b : Byte) : (s.setDelay b).pending = s.pending := rfl
@[simp] theorem State.setDelay_draws (s : State) (b : Byte) : (s.setDelay b).draws = s.draws := rfl
@[simp] theorem State.setDelay_inCycle (s : State) (b : Byte) : (s.setDelay b).inCycle = s.inCycle := rfl
@[simp] theorem State.setDelay_out (s : State) (b : Byte) : (s.setDelay b).out = s.out := rfl

/-! ### `ST <- b` -/

@[simp] theorem State.setSound_v (s : State) (b : Byte) : (s.setSound b).v = s.v := rfl
@[simp] theorem State.setSound_i (s : State) (b : Byte) : (s.setSound b).i = s.i := rfl
@[simp] theorem State.setSound_pc (s : State) (b : Byte) : (s.setSound b).pc = s.pc := rfl
@[simp] theorem State.setSound_sp (s : State) (b : Byte) : (s.setSound b).sp = s.sp := rfl
@[simp] theorem State.setSound_stack (s : State) (b : Byte) : (s.setSound b).stack = s.stack := rfl
@[simp] theorem State.setSound_dt (s : State) (b : Byte) : (s.setSound b).dt = s.dt := rfl
@[simp] theorem State.setSound_st (s : State) (b : Byte) : (s.setSound b).st = b := rfl
@[simp] theorem State.setSound_keypad (s : State) (b : Byte) : (s.setSound b).keypad = s.keypad := rfl
@[simp] theorem State.setSound_display (s : State) (b : Byte) : (s.setSound b).display = s.display := rfl
@[simp] theorem State.setSound_opcode (s : State) (b : Byte) : (s.setSound b).opcode = s.opcode := rfl
@[simp] theorem State.setSound_quirk (s : State) (b : Byte) : (s.setSound b).quirk = s.quirk := rfl
@[simp] theorem State.setSound_mem (s : State) (b : Byte) : (s.setSound b).mem = s.mem := rfl
@[simp] theorem State.setSound_halted (s : State) (b : Byte) : (s.setSound b).halted = s.halted := rfl
@[simp] theorem State.setSound_faultCause (s : State) (b : Byte) : (s.setSound b).faultCause = s.faultCause := rfl
@[simp] theorem State.setSound_faultPc (s : State) (b : Byte) : (s.setSound b).faultPc = s.faultPc := rfl
@[simp] theorem State.setSound_faultWord (s : State) (b : Byte) : (s.setSound b).faultWord = s.faultWord := rfl
@[simp] theorem State.setSound_font (s : State) (b : Byte) : (s.setSound b).font = s.font := rfl
@[simp] theorem State.setSound_pending (s : State) (b : Byte) : (s.setSound b).pending = s.pending := rfl
@[simp] theorem State.setSound_draws (s : State) (b : Byte) : (s.setSound b).draws = s.draws := rfl
@[simp] theorem State.setSound_inCycle (s : State) (b : Byte) : (s.setSound b).inCycle = s.inCycle := rfl
@[simp] theorem State.setSound_out (s : State) (b : Byte) : (s.setSound b).out = s.out := rfl

/-! ### The display -/

@[simp] theorem State.setDisplay_v (s : State) (d : Display) : (s.setDisplay d).v = s.v := rfl
@[simp] theorem State.setDisplay_i (s : State) (d : Display) : (s.setDisplay d).i = s.i := rfl
@[simp] theorem State.setDisplay_pc (s : State) (d : Display) : (s.setDisplay d).pc = s.pc := rfl
@[simp] theorem State.setDisplay_sp (s : State) (d : Display) : (s.setDisplay d).sp = s.sp := rfl
@[simp] theorem State.setDisplay_stack (s : State) (d : Display) : (s.setDisplay d).stack = s.stack := rfl
@[simp] theorem State.setDisplay_dt (s : State) (d : Display) : (s.setDisplay d).dt = s.dt := rfl
@[simp] theorem State.setDisplay_st (s : State) (d : Display) : (s.setDisplay d).st = s.st := rfl
@[simp] theorem State.setDisplay_keypad (s : State) (d : Display) : (s.setDisplay d).keypad = s.keypad := rfl
@[simp] theorem State.setDisplay_display (s : State) (d : Display) : (s.setDisplay d).display = d := rfl
@[simp] theorem State.setDisplay_opcode (s : State) (d : Display) : (s.setDisplay d).opcode = s.opcode := rfl
@[simp] theorem State.setDisplay_quirk (s : State) (d : Display) : (s.setDisplay d).quirk = s.quirk := rfl
@[simp] theorem State.setDisplay_mem (s : State) (d : Display) : (s.setDisplay d).mem = s.mem := rfl
@[simp] theorem State.setDisplay_halted (s : State) (d : Display) : (s.setDisplay d).halted = s.halted := rfl
@[simp] theorem State.setDisplay_faultCause (s : State) (d : Display) : (s.setDisplay d).faultCause = s.faultCause := rfl
@[simp] theorem State.setDisplay_faultPc (s : State) (d : Display) : (s.setDisplay d).faultPc = s.faultPc := rfl
@[simp] theorem State.setDisplay_faultWord (s : State) (d : Display) : (s.setDisplay d).faultWord = s.faultWord := rfl
@[simp] theorem State.setDisplay_font (s : State) (d : Display) : (s.setDisplay d).font = s.font := rfl
@[simp] theorem State.setDisplay_pending (s : State) (d : Display) : (s.setDisplay d).pending = s.pending := rfl
@[simp] theorem State.setDisplay_draws (s : State) (d : Display) : (s.setDisplay d).draws = s.draws := rfl
@[simp] theorem State.setDisplay_inCycle (s : State) (d : Display) : (s.setDisplay d).inCycle = s.inCycle := rfl
@[simp] theorem State.setDisplay_out (s : State) (d : Display) : (s.setDisplay d).out = s.out := rfl

/-! ### Memory -/

@[simp] theorem State.setMem_v (s : State) (m : Memory) : (s.setMem m).v = s.v := rfl
@[simp] theorem State.setMem_i (s : State) (m : Memory) : (s.setMem m).i = s.i := rfl
@[simp] theorem State.setMem_pc (s : State) (m : Memory) : (s.setMem m).pc = s.pc := rfl
@[simp] theorem State.setMem_sp (s : State) (m : Memory) : (s.setMem m).sp = s.sp := rfl
@[simp] theorem State.setMem_stack (s : State) (m : Memory) : (s.setMem m).stack = s.stack := rfl
@[simp] theorem State.setMem_dt (s : State) (m : Memory) : (s.setMem m).dt = s.dt := rfl
@[simp] theorem State.setMem_st (s : State) (m : Memory) : (s.setMem m).st = s.st := rfl
@[simp] theorem State.setMem_keypad (s : State) (m : Memory) : (s.setMem m).keypad = s.keypad := rfl
@[simp] theorem State.setMem_display (s : State) (m : Memory) : (s.setMem m).display = s.display := rfl
@[simp] theorem State.setMem_opcode (s : State) (m : Memory) : (s.setMem m).opcode = s.opcode := rfl
@[simp] theorem State.setMem_quirk (s : State) (m : Memory) : (s.setMem m).quirk = s.quirk := rfl
@[simp] theorem State.setMem_mem (s : State) (m : Memory) : (s.setMem m).mem = m := rfl
@[simp] theorem State.setMem_halted (s : State) (m : Memory) : (s.setMem m).halted = s.halted := rfl
@[simp] theorem State.setMem_faultCause (s : State) (m : Memory) : (s.setMem m).faultCause = s.faultCause := rfl
@[simp] theorem State.setMem_faultPc (s : State) (m : Memory) : (s.setMem m).faultPc = s.faultPc := rfl
@[simp] theorem State.setMem_faultWord (s : State) (m : Memory) : (s.setMem m).faultWord = s.faultWord := rfl
@[simp] theorem State.setMem_font (s : State) (m : Memory) : (s.setMem m).font = s.font := rfl
@[simp] theorem State.setMem_pending (s : State) (m : Memory) : (s.setMem m).pending = s.pending := rfl
@[simp] theorem State.setMem_draws (s : State) (m : Memory) : (s.setMem m).draws = s.draws := rfl
@[simp] theorem State.setMem_inCycle (s : State) (m : Memory) : (s.setMem m).inCycle = s.inCycle := rfl
@[simp] theorem State.setMem_out (s : State) (m : Memory) : (s.setMem m).out = s.out := rfl

/-! ### `PC <- a` -/

@[simp] theorem State.setPc_v (s : State) (a : Word) : (s.setPc a).v = s.v := rfl
@[simp] theorem State.setPc_i (s : State) (a : Word) : (s.setPc a).i = s.i := rfl
@[simp] theorem State.setPc_pc (s : State) (a : Word) : (s.setPc a).pc = a := rfl
@[simp] theorem State.setPc_sp (s : State) (a : Word) : (s.setPc a).sp = s.sp := rfl
@[simp] theorem State.setPc_stack (s : State) (a : Word) : (s.setPc a).stack = s.stack := rfl
@[simp] theorem State.setPc_dt (s : State) (a : Word) : (s.setPc a).dt = s.dt := rfl
@[simp] theorem State.setPc_st (s : State) (a : Word) : (s.setPc a).st = s.st := rfl
@[simp] theorem State.setPc_keypad (s : State) (a : Word) : (s.setPc a).keypad = s.keypad := rfl
@[simp] theorem State.setPc_display (s : State) (a : Word) : (s.setPc a).display = s.display := rfl
@[simp] theorem State.setPc_opcode (s : State) (a : Word) : (s.setPc a).opcode = s.opcode := rfl
@[simp] theorem State.setPc_quirk (s : State) (a : Word) : (s.setPc a).quirk = s.quirk := rfl
@[simp] theorem State.setPc_mem (s : State) (a : Word) : (s.setPc a).mem = s.mem := rfl
@[simp] theorem State.setPc_halted (s : State) (a : Word) : (s.setPc a).halted = s.halted := rfl
@[simp] theorem State.setPc_faultCause (s : State) (a : Word) : (s.setPc a).faultCause = s.faultCause := rfl
@[simp] theorem State.setPc_faultPc (s : State) (a : Word) : (s.setPc a).faultPc = s.faultPc := rfl
@[simp] theorem State.setPc_faultWord (s : State) (a : Word) : (s.setPc a).faultWord = s.faultWord := rfl
@[simp] theorem State.setPc_font (s : State) (a : Word) : (s.setPc a).font = s.font := rfl
@[simp] theorem State.setPc_pending (s : State) (a : Word) : (s.setPc a).pending = s.pending := rfl
@[simp] theorem State.setPc_draws (s : State) (a : Word) : (s.setPc a).draws = s.draws := rfl
@[simp] theorem State.setPc_inCycle (s : State) (a : Word) : (s.setPc a).inCycle = s.inCycle := rfl
@[simp] theorem State.setPc_out (s : State) (a : Word) : (s.setPc a).out = s.out := rfl

/-! ### A skip -/

@[simp] theorem State.skipIf_v (s : State) (c : Bool) : (s.skipIf c).v = s.v := by cases c <;> rfl
@[simp] theorem State.skipIf_i (s : State) (c : Bool) : (s.skipIf c).i = s.i := by cases c <;> rfl
@[simp] theorem State.skipIf_pc (s : State) (c : Bool) : (s.skipIf c).pc = if c then s.pc + 2 else s.pc := by cases c <;> rfl
@[simp] theorem State.skipIf_sp (s : State) (c : Bool) : (s.skipIf c).sp = s.sp := by cases c <;> rfl
@[simp] theorem State.skipIf_stack (s : State) (c : Bool) : (s.skipIf c).stack = s.stack := by cases c <;> rfl
@[simp] theorem State.skipIf_dt (s : State) (c : Bool) : (s.skipIf c).dt = s.dt := by cases c <;> rfl
@[simp] theorem State.skipIf_st (s : State) (c : Bool) : (s.skipIf c).st = s.st := by cases c <;> rfl
@[simp] theorem State.skipIf_keypad (s : State) (c : Bool) : (s.skipIf c).keypad = s.keypad := by cases c <;> rfl
@[simp] theorem State.skipIf_display (s : State) (c : Bool) : (s.skipIf c).display = s.display := by cases c <;> rfl
@[simp] theorem State.skipIf_opcode (s : State) (c : Bool) : (s.skipIf c).opcode = s.opcode := by cases c <;> rfl
@[simp] theorem State.skipIf_quirk (s : State) (c : Bool) : (s.skipIf c).quirk = s.quirk := by cases c <;> rfl
@[simp] theorem State.skipIf_mem (s : State) (c : Bool) : (s.skipIf c).mem = s.mem := by cases c <;> rfl
@[simp] theorem State.skipIf_halted (s : State) (c : Bool) : (s.skipIf c).halted = s.halted := by cases c <;> rfl
@[simp] theorem State.skipIf_faultCause (s : State) (c : Bool) : (s.skipIf c).faultCause = s.faultCause := by cases c <;> rfl
@[simp] theorem State.skipIf_faultPc (s : State) (c : Bool) : (s.skipIf c).faultPc = s.faultPc := by cases c <;> rfl
@[simp] theorem State.skipIf_faultWord (s : State) (c : Bool) : (s.skipIf c).faultWord = s.faultWord := by cases c <;> rfl
@[simp] theorem State.skipIf_font (s : State) (c : Bool) : (s.skipIf c).font = s.font := by cases c <;> rfl
@[simp] theorem State.skipIf_pending (s : State) (c : Bool) : (s.skipIf c).pending = s.pending := by cases c <;> rfl
@[simp] theorem State.skipIf_draws (s : State) (c : Bool) : (s.skipIf c).draws = s.draws := by cases c <;> rfl
@[simp] theorem State.skipIf_inCycle (s : State) (c : Bool) : (s.skipIf c).inCycle = s.inCycle := by cases c <;> rfl
@[simp] theorem State.skipIf_out (s : State) (c : Bool) : (s.skipIf c).out = s.out := by cases c <;> rfl

/-! ### The start of a cycle -/

@[simp] theorem State.beginCycle_v (s : State) (keys : Vector Bool 16) (rnd : Byte) : (s.beginCycle keys rnd).v = s.v := rfl
@[simp] theorem State.beginCycle_i (s : State) (keys : Vector Bool 16) (rnd : Byte) : (s.beginCycle keys rnd).i = s.i := rfl
@[simp] theorem State.beginCycle_pc (s : State) (keys : Vector Bool 16) (rnd : Byte) : (s.beginCycle keys rnd).pc = s.pc := rfl
@[simp] theorem State.beginCycle_sp (s : State) (keys : Vector Bool 16) (rnd : Byte) : (s.beginCycle keys rnd).sp = s.sp := rfl
@[simp] theorem State.beginCycle_stack (s : State) (keys : Vector Bool 16) (rnd : Byte) : (s.beginCycle keys rnd).stack = s.stack := rfl
@[simp] theorem State.beginCycle_dt (s : State) (keys : Vector Bool 16) (rnd : Byte) : (s.beginCycle keys rnd).dt = s.dt := rfl
@[simp] theorem State.beginCycle_st (s : State) (keys : Vector Bool 16) (rnd : Byte) : (s.beginCycle keys rnd).st = s.st := rfl
@[simp] theorem State.beginCycle_keypad (s : State) (keys : Vector Bool 16) (rnd : Byte) : (s.beginCycle keys rnd).keypad = keys := rfl
@[simp] theorem State.beginCycle_display (s : State) (keys : Vector Bool 16) (rnd : Byte) : (s.beginCycle keys rnd).display = s.display := rfl
@[simp] theorem State.beginCycle_opcode (s : State) (keys : Vector Bool 16) (rnd : Byte) : (s.beginCycle keys rnd).opcode = s.opcode := rfl
@[simp] theorem State.beginCycle_quirk (s : State) (keys : Vector Bool 16) (rnd : Byte) : (s.beginCycle keys rnd).quirk = s.quirk := rfl
@[simp] theorem State.beginCycle_mem (s : State) (keys : Vector Bool 16) (rnd : Byte) : (s.beginCycle keys rnd).mem = s.mem := rfl
@[simp] theorem State.beginCycle_halted (s : State) (keys : Vector Bool 16) (rnd : Byte) : (s.beginCycle keys rnd).halted = s.halted := rfl
@[simp] theorem State.beginCycle_faultCause (s : State) (keys : Vector Bool 16) (rnd : Byte) : (s.beginCycle keys rnd).faultCause = s.faultCause := rfl
@[simp] theorem State.beginCycle_faultPc (s : State) (keys : Vector Bool 16) (rnd : Byte) : (s.beginCycle keys rnd).faultPc = s.faultPc := rfl
@[simp] theorem State.beginCycle_faultWord (s : State) (keys : Vector Bool 16) (rnd : Byte) : (s.beginCycle keys rnd).faultWord = s.faultWord := rfl
@[simp] theorem State.beginCycle_font (s : State) (keys : Vector Bool 16) (rnd : Byte) : (s.beginCycle keys rnd).font = s.font := rfl
@[simp] theorem State.beginCycle_pending (s : State) (keys : Vector Bool 16) (rnd : Byte) : (s.beginCycle keys rnd).pending = s.pending := rfl
@[simp] theorem State.beginCycle_draws (s : State) (keys : Vector Bool 16) (rnd : Byte) : (s.beginCycle keys rnd).draws = s.draws := rfl
@[simp] theorem State.beginCycle_inCycle (s : State) (keys : Vector Bool 16) (rnd : Byte) : (s.beginCycle keys rnd).inCycle = some ⟨s.toArch, rnd⟩ := rfl
@[simp] theorem State.beginCycle_out (s : State) (keys : Vector Bool 16) (rnd : Byte) : (s.beginCycle keys rnd).out = .quiet := rfl

/-! ### The fetch advance -/

@[simp] theorem State.advance_v (s : State) (w : Word) : (s.advance w).v = s.v := rfl
@[simp] theorem State.advance_i (s : State) (w : Word) : (s.advance w).i = s.i := rfl
@[simp] theorem State.advance_pc (s : State) (w : Word) : (s.advance w).pc = s.pc + 2 := rfl
@[simp] theorem State.advance_sp (s : State) (w : Word) : (s.advance w).sp = s.sp := rfl
@[simp] theorem State.advance_stack (s : State) (w : Word) : (s.advance w).stack = s.stack := rfl
@[simp] theorem State.advance_dt (s : State) (w : Word) : (s.advance w).dt = s.dt := rfl
@[simp] theorem State.advance_st (s : State) (w : Word) : (s.advance w).st = s.st := rfl
@[simp] theorem State.advance_keypad (s : State) (w : Word) : (s.advance w).keypad = s.keypad := rfl
@[simp] theorem State.advance_display (s : State) (w : Word) : (s.advance w).display = s.display := rfl
@[simp] theorem State.advance_opcode (s : State) (w : Word) : (s.advance w).opcode = w := rfl
@[simp] theorem State.advance_quirk (s : State) (w : Word) : (s.advance w).quirk = s.quirk := rfl
@[simp] theorem State.advance_mem (s : State) (w : Word) : (s.advance w).mem = s.mem := rfl
@[simp] theorem State.advance_halted (s : State) (w : Word) : (s.advance w).halted = s.halted := rfl
@[simp] theorem State.advance_faultCause (s : State) (w : Word) : (s.advance w).faultCause = s.faultCause := rfl
@[simp] theorem State.advance_faultPc (s : State) (w : Word) : (s.advance w).faultPc = s.faultPc := rfl
@[simp] theorem State.advance_faultWord (s : State) (w : Word) : (s.advance w).faultWord = s.faultWord := rfl
@[simp] theorem State.advance_font (s : State) (w : Word) : (s.advance w).font = s.font := rfl
@[simp] theorem State.advance_pending (s : State) (w : Word) : (s.advance w).pending = s.pending := rfl
@[simp] theorem State.advance_draws (s : State) (w : Word) : (s.advance w).draws = s.draws := rfl
@[simp] theorem State.advance_inCycle (s : State) (w : Word) : (s.advance w).inCycle = s.inCycle := rfl
@[simp] theorem State.advance_out (s : State) (w : Word) : (s.advance w).out = s.out := rfl

/-! ### The timers -/

@[simp] theorem State.tickTimers_v (s : State) : (s.tickTimers).v = s.v := rfl
@[simp] theorem State.tickTimers_i (s : State) : (s.tickTimers).i = s.i := rfl
@[simp] theorem State.tickTimers_pc (s : State) : (s.tickTimers).pc = s.pc := rfl
@[simp] theorem State.tickTimers_sp (s : State) : (s.tickTimers).sp = s.sp := rfl
@[simp] theorem State.tickTimers_stack (s : State) : (s.tickTimers).stack = s.stack := rfl
@[simp] theorem State.tickTimers_dt (s : State) : (s.tickTimers).dt = tick s.dt := rfl
@[simp] theorem State.tickTimers_st (s : State) : (s.tickTimers).st = tick s.st := rfl
@[simp] theorem State.tickTimers_keypad (s : State) : (s.tickTimers).keypad = s.keypad := rfl
@[simp] theorem State.tickTimers_display (s : State) : (s.tickTimers).display = s.display := rfl
@[simp] theorem State.tickTimers_opcode (s : State) : (s.tickTimers).opcode = s.opcode := rfl
@[simp] theorem State.tickTimers_quirk (s : State) : (s.tickTimers).quirk = s.quirk := rfl
@[simp] theorem State.tickTimers_mem (s : State) : (s.tickTimers).mem = s.mem := rfl
@[simp] theorem State.tickTimers_halted (s : State) : (s.tickTimers).halted = s.halted := rfl
@[simp] theorem State.tickTimers_faultCause (s : State) : (s.tickTimers).faultCause = s.faultCause := rfl
@[simp] theorem State.tickTimers_faultPc (s : State) : (s.tickTimers).faultPc = s.faultPc := rfl
@[simp] theorem State.tickTimers_faultWord (s : State) : (s.tickTimers).faultWord = s.faultWord := rfl
@[simp] theorem State.tickTimers_font (s : State) : (s.tickTimers).font = s.font := rfl
@[simp] theorem State.tickTimers_pending (s : State) : (s.tickTimers).pending = s.pending := rfl
@[simp] theorem State.tickTimers_draws (s : State) : (s.tickTimers).draws = s.draws := rfl
@[simp] theorem State.tickTimers_inCycle (s : State) : (s.tickTimers).inCycle = s.inCycle := rfl
@[simp] theorem State.tickTimers_out (s : State) : (s.tickTimers).out = s.out := rfl

/-! ### The end of a cycle -/

@[simp] theorem State.endCycle_v (s : State) : (s.endCycle).v = s.v := by cases h : s.halted <;> simp [State.endCycle, h]
@[simp] theorem State.endCycle_i (s : State) : (s.endCycle).i = s.i := by cases h : s.halted <;> simp [State.endCycle, h]
@[simp] theorem State.endCycle_pc (s : State) : (s.endCycle).pc = s.pc := by cases h : s.halted <;> simp [State.endCycle, h]
@[simp] theorem State.endCycle_sp (s : State) : (s.endCycle).sp = s.sp := by cases h : s.halted <;> simp [State.endCycle, h]
@[simp] theorem State.endCycle_stack (s : State) : (s.endCycle).stack = s.stack := by cases h : s.halted <;> simp [State.endCycle, h]
@[simp] theorem State.endCycle_dt (s : State) : (s.endCycle).dt = if s.halted then s.dt else tick s.dt := by cases h : s.halted <;> simp [State.endCycle, h]
@[simp] theorem State.endCycle_st (s : State) : (s.endCycle).st = if s.halted then s.st else tick s.st := by cases h : s.halted <;> simp [State.endCycle, h]
@[simp] theorem State.endCycle_keypad (s : State) : (s.endCycle).keypad = s.keypad := by cases h : s.halted <;> simp [State.endCycle, h]
@[simp] theorem State.endCycle_display (s : State) : (s.endCycle).display = s.display := by cases h : s.halted <;> simp [State.endCycle, h]
@[simp] theorem State.endCycle_opcode (s : State) : (s.endCycle).opcode = s.opcode := by cases h : s.halted <;> simp [State.endCycle, h]
@[simp] theorem State.endCycle_quirk (s : State) : (s.endCycle).quirk = s.quirk := by cases h : s.halted <;> simp [State.endCycle, h]
@[simp] theorem State.endCycle_mem (s : State) : (s.endCycle).mem = s.mem := by cases h : s.halted <;> simp [State.endCycle, h]
@[simp] theorem State.endCycle_halted (s : State) : (s.endCycle).halted = s.halted := by cases h : s.halted <;> simp [State.endCycle, h]
@[simp] theorem State.endCycle_faultCause (s : State) : (s.endCycle).faultCause = s.faultCause := by cases h : s.halted <;> simp [State.endCycle, h]
@[simp] theorem State.endCycle_faultPc (s : State) : (s.endCycle).faultPc = s.faultPc := by cases h : s.halted <;> simp [State.endCycle, h]
@[simp] theorem State.endCycle_faultWord (s : State) : (s.endCycle).faultWord = s.faultWord := by cases h : s.halted <;> simp [State.endCycle, h]
@[simp] theorem State.endCycle_font (s : State) : (s.endCycle).font = s.font := by cases h : s.halted <;> simp [State.endCycle, h]
@[simp] theorem State.endCycle_pending (s : State) : (s.endCycle).pending = s.pending := by cases h : s.halted <;> simp [State.endCycle, h]
@[simp] theorem State.endCycle_draws (s : State) : (s.endCycle).draws = s.draws := by cases h : s.halted <;> simp [State.endCycle, h]
@[simp] theorem State.endCycle_inCycle (s : State) : (s.endCycle).inCycle = none := by cases h : s.halted <;> simp [State.endCycle, h]
@[simp] theorem State.endCycle_out (s : State) : (s.endCycle).out = s.out := by cases h : s.halted <;> simp [State.endCycle, h]

end Sys2Proof.Machine
end

