-- ==== Sys2Proof/Laws/Ops.lean ====
section
/-! SUPPORT. One lemma for each shared operation over registers, the stack, the keys and the fault record, saying once what
it does. -/

namespace Sys2Proof.Machine

variable {s t : State}

theorem reg_eq (s : State) (r : Reg) : s.reg r = s.v[r] := rfl

/-- A register reads the value last written to it (spec/10_state.md R21). -/
theorem reg_setReg (r q : Reg) (b : Byte) : (s.setReg r b).reg q = if q = r then b else s.reg q := by
  simp only [State.reg, State.setReg_v, Fin.getElem_fin, Vector.getElem_set]
  by_cases h : q = r
  · simp [h]
  · rw [if_neg (fun hv => h (Fin.ext hv.symm)), if_neg h]

/-- A push below the top of the stack succeeds (spec/10_state.md R27). -/
theorem push_of_lt (k : Fin 16) (h : s.sp.val = k.val) (a : Word) :
    s.push a = some { s with stack := s.stack.set k a, sp := k.succ } := by
  have hlt : s.sp.val < 16 := h ▸ k.isLt
  rw [State.push, dif_pos hlt]
  simp only [h, Fin.succ]

theorem push_full (h : s.sp.val = 16) (a : Word) : s.push a = none := by
  rw [State.push, dif_neg (by omega)]

/-- A pop of a stack that is not empty succeeds and leaves the entries alone (R27, R28). -/
theorem pop_of_pos (k : Fin 16) (h : s.sp.val = k.val + 1) :
    s.pop = some (s.stack[k], { s with sp := k.castSucc }) := by
  have hpos : 0 < s.sp.val := by omega
  rw [State.pop, dif_pos hpos]
  simp only [h, Nat.add_sub_cancel, Fin.getElem_fin]
  rfl

theorem pop_empty (h : s.sp.val = 0) : s.pop = none := by
  rw [State.pop, dif_neg (by omega)]

/-- Whether a stack pointer leaves room, or an entry to pop. -/
theorem sp_cases (p : Fin 17) : (∃ k : Fin 16, p.val = k.val) ∨ p.val = 16 := by
  by_cases h : p.val < 16
  · exact .inl ⟨⟨p.val, h⟩, rfl⟩
  · exact .inr (by omega)

/-- Writing registers in a row changes registers only. -/
theorem setRegs_eq (s : State) (k : Nat) (bs : List Byte) : s.setRegs k bs = { s with v := (s.setRegs k bs).v } := by
  induction bs generalizing s k with
  | nil => rfl
  | cons b bs ih =>
    rw [State.setRegs, ih]
    split <;> rfl

/-- What a row of register writes leaves in each register. -/
theorem setRegs_v (s : State) (k : Nat) (bs : List Byte) (r : Reg) :
    (s.setRegs k bs).v[r] = if k ≤ r.val ∧ r.val < k + bs.length then bs.getD (r.val - k) 0 else s.v[r] := by
  induction bs generalizing s k with
  | nil => rw [if_neg (by simp)]; rfl
  | cons b bs ih =>
    rw [State.setRegs, ih, List.length_cons]
    by_cases hk : k < 16
    · rw [dif_pos hk]
      rw [State.setReg_v]
      simp only [Fin.getElem_fin, Vector.getElem_set]
      by_cases hr : r.val = k
      · rw [if_neg (by omega), if_pos hr.symm, if_pos (by omega), hr, Nat.sub_self, List.getD_cons_zero]
      · rw [if_neg (Ne.symm hr)]
        by_cases hin : k + 1 ≤ r.val ∧ r.val < k + 1 + bs.length
        · rw [if_pos hin, if_pos (by omega), show r.val - k = r.val - (k + 1) + 1 by omega, List.getD_cons_succ]
        · rw [if_neg hin, if_neg (by omega)]
    · rw [dif_neg hk, if_neg (by omega), if_neg (by omega)]

/-- The lowest pressed key is pressed, and no key below it is (spec/45_timers_keys.md R273). -/
theorem lowestKey_eq_some {keypad : Vector Bool 16} {k : Fin 16} (hk : keypad[k] = true)
    (hmin : ∀ j : Fin 16, j < k → keypad[j] = false) : lowestKey keypad = some k := by
  unfold lowestKey
  cases hf : (List.finRange 16).find? (fun k => keypad[k]) with
  | none => exact absurd hk (by simpa using List.find?_eq_none.1 hf k (List.mem_finRange k))
  | some j =>
    have hj : keypad[j] = true := List.find?_some (p := fun k : Fin 16 => keypad[k]) hf
    rcases lt_trichotomy j k with hlt | rfl | hlt
    · rw [hmin j hlt] at hj
      cases hj
    · rfl
    · exfalso
      obtain ⟨as, bs, heq, hall⟩ := (List.find?_eq_some_iff_append.1 hf).2
      have hkas : k ∈ as := by
        have hmem : k ∈ as ++ j :: bs := heq ▸ List.mem_finRange k
        have hsorted : (as ++ j :: bs).Pairwise (· < ·) := heq ▸ List.pairwise_lt_finRange 16
        rcases List.mem_append.1 hmem with h | h
        · exact h
        · rcases List.mem_cons.1 h with rfl | h
          · exact absurd hlt (lt_irrefl _)
          · have := (List.pairwise_append.1 hsorted).2.1
            exact absurd ((List.pairwise_cons.1 this).1 k h) (not_lt.2 hlt.le)
      have := hall k hkas
      simp [hk] at this

theorem lowestKey_eq_none {keypad : Vector Bool 16} (h : ∀ k : Fin 16, keypad[k] = false) :
    lowestKey keypad = none := by
  unfold lowestKey
  rw [List.find?_eq_none]
  intro k _
  rw [h k]
  exact Bool.false_ne_true

theorem key_of_eq {x : Byte} (k : Fin 16) (h : x.toNat = k.val) : s.key x = some s.keypad[k] := by
  have hlt : x.toNat < 16 := h ▸ k.isLt
  rw [State.key, dif_pos hlt]
  simp only [h, Fin.getElem_fin]

theorem key_out_of_range {x : Byte} (h : 15 < x.toNat) : s.key x = none := by
  rw [State.key, dif_neg (by omega)]

/-- A skip adds 2 to PC or leaves it (spec/41_flow.md R159). -/
theorem skipIf_eq (s : State) (c : Bool) : s.skipIf c = { s with pc := if c then s.pc + 2 else s.pc } := by
  cases c <;> rfl

/-- NNN as a 16-bit value (spec/30_encoding.md R91). -/
theorem zext16_eq (nnn : Addr) : zext16 nnn = BitVec.ofNat 16 nnn.toNat :=
  BitVec.eq_of_toNat_eq (by simp [zext16])

/-- The target of BNNN is the exact sum, at most 0x10FE (spec/41_flow.md R158). -/
theorem offsetTarget_eq (s : State) (nnn : Addr) :
    s.offsetTarget nnn = BitVec.ofNat 16 (s.v[0].toNat + nnn.toNat) :=
  BitVec.eq_of_toNat_eq (by simp [State.offsetTarget, zext16, reg_eq])

/-- FX55 stores X + 1 bytes. -/
@[simp] theorem regsUpTo_length (s : State) (x : Reg) : (s.regsUpTo x).length = x.val + 1 := by
  simp [State.regsUpTo]

/-- Taking a fault while a cycle runs leaves S0 and the record, and the model's own fields (spec/60_exceptions.md R303). -/
theorem takeFault_in_cycle {c : CycleContext} (h : s.inCycle = some c) (cause : FaultCause) (word : Option Word) :
    s.takeFault cause word = { s with
      toArch := { c.start with halted := true, faultCause := cause, faultPc := c.start.pc, faultWord := word } } := by
  simp only [State.takeFault, State.startArch, h]

@[simp] theorem takeFault_halted (cause : FaultCause) (word : Option Word) : (s.takeFault cause word).halted = true := rfl
@[simp] theorem takeFault_inCycle (cause : FaultCause) (word : Option Word) :
    (s.takeFault cause word).inCycle = s.inCycle := rfl
@[simp] theorem takeFault_font (cause : FaultCause) (word : Option Word) : (s.takeFault cause word).font = s.font := rfl

end Sys2Proof.Machine
end

