-- ==== Sys2Proof/Laws/Exec.lean ====
section
/-! SUPPORT. What an instruction can do, said once: it takes a fatal fault, or it answers a next state that keeps every
element no instruction writes. -/

namespace Sys2Proof.Machine

/-- What every instruction that does not fault keeps: the elements no instruction writes (spec/10_state.md R38), and the
canonical form of memory. -/
structure Keeps (s t : State) : Prop where
  keypad : t.keypad = s.keypad
  opcode : t.opcode = s.opcode
  quirk : t.quirk = s.quirk
  halted : t.halted = s.halted
  faultCause : t.faultCause = s.faultCause
  faultPc : t.faultPc = s.faultPc
  faultWord : t.faultWord = s.faultWord
  font : t.font = s.font
  pending : t.pending = s.pending
  draws : t.draws = s.draws
  inCycle : t.inCycle = s.inCycle
  out : t.out = s.out
  memory : Memory.wf s.font s.mem = true → Memory.wf t.font t.mem = true

variable {s t : State}

/-- A change of the elements an instruction may write, memory apart. -/
theorem keeps_update (v : Vector Byte 16) (i pc : Word) (sp : Fin 17) (stack : Vector Word 16) (dt st : Byte)
    (display : Display) :
    Keeps s { s with
      v := v, i := i, pc := pc, sp := sp, stack := stack, dt := dt, st := st, display := display } :=
  ⟨rfl, rfl, rfl, rfl, rfl, rfl, rfl, rfl, rfl, rfl, rfl, rfl, id⟩

theorem keeps_skipIf (c : Bool) : Keeps s (s.skipIf c) := by
  cases c <;> exact keeps_update ..

theorem keeps_memWrites {a : Nat} {bs : List Byte} (h : s.memWrites a bs = some t) : Keeps s t := by
  obtain ⟨rfl, hlen⟩ := memWrites_some h
  refine ⟨rfl, rfl, rfl, rfl, rfl, rfl, rfl, rfl, rfl, rfl, rfl, rfl, fun hwf => ?_⟩
  rcases hlen with rfl | hlen
  · exact hwf
  · exact Memory.wf_copyIn bs hwf hlen

/-- An instruction faults, or keeps what `Keeps` lists. -/
def Effect (s : State) (r : Result) : Prop :=
  (∃ cause, cause ≠ .noFault ∧ r = s.raise cause) ∨ ∃ t, r = .next t ∧ Keeps s t

theorem effect_next (h : Keeps s t) : Effect s (.next t) := .inr ⟨t, rfl, h⟩

theorem effect_raise {cause : FaultCause} (h : cause ≠ .noFault) : Effect s (s.raise cause) := .inl ⟨cause, h, rfl⟩

theorem exec_effect (i : Instr) (s : State) : Effect s (exec i s) := by
  cases i with
  | cls | jp | jpV0 | ldImm | addImm | ldReg | orReg | andReg | xorReg | addReg | subReg | shr | subnReg | shl | ldI
  | rnd | ldVxDt | ldDtVx | ldStVx | ldFont => exact effect_next (keeps_update ..)
  | seImm | sneImm | seReg | sneReg => exact effect_next (keeps_skipIf _)
  | ret =>
    rcases Nat.eq_zero_or_pos s.sp.val with h | h
    · simp only [exec, execRet, pop_empty h]
      exact effect_raise (by decide)
    · simp only [exec, execRet, pop_of_pos ⟨s.sp.val - 1, by omega⟩ (show s.sp.val = s.sp.val - 1 + 1 by omega)]
      exact effect_next (keeps_update ..)
  | call nnn =>
    rcases sp_cases s.sp with ⟨k, h⟩ | h
    · simp only [exec, execCall, push_of_lt k h]
      exact effect_next (keeps_update ..)
    · simp only [exec, execCall, push_full h]
      exact effect_raise (by decide)
  | drw x y n =>
    simp only [exec, execDrw]
    split
    · exact effect_raise (by decide)
    · exact effect_next (keeps_update ..)
  | skp x =>
    simp only [exec, execSkp]
    split
    · exact effect_raise (by decide)
    · exact effect_next (keeps_skipIf _)
  | sknp x =>
    simp only [exec, execSknp]
    split
    · exact effect_raise (by decide)
    · exact effect_next (keeps_skipIf _)
  | ldKey x =>
    simp only [exec, execLdKey]
    split <;> exact effect_next (keeps_update ..)
  | addI x =>
    simp only [exec, execAddI]
    split
    · exact effect_raise (by decide)
    · exact effect_next (keeps_update ..)
  | ldBcd x =>
    simp only [exec, execLdBcd]
    split
    · exact effect_raise (by decide)
    · exact effect_next (keeps_memWrites ‹_›)
  | storeRegs x =>
    simp only [exec, execStoreRegs]
    split
    · exact effect_raise (by decide)
    · exact effect_next (keeps_memWrites ‹_›)
  | loadRegs x =>
    simp only [exec, execLoadRegs]
    split
    · exact effect_raise (by decide)
    · rw [setRegs_eq]
      exact effect_next (keeps_update ..)

end Sys2Proof.Machine
end

