-- ==== Sys2Proof/Laws/PerInstr.lean ====
section
/-! SUPPORT. Two facts about every instruction as syntax, one lemma for each constructor: its operands fit their fields, and
its encoding selects the table row that builds it. -/

namespace Sys2Proof.Laws

/-- Every operand fits the field it is encoded in (spec/30_encoding.md R91): a consequence of the operand types. -/
def OperandsFit.Statement (i : Instr) : Prop := i.wellFormed = true

theorem OperandsFit.reg (x : Fin 16) : (Operand.ofReg x).fits = true := by
  simp [Operand.ofReg, Operand.fits, x.isLt]

theorem OperandsFit.byte (nn : Byte) : (Operand.ofByte nn).fits = true := by
  simp [Operand.ofByte, Operand.fits, nn.isLt]

theorem OperandsFit.addr (nnn : Addr) : (Operand.ofAddr nnn).fits = true := by
  simp [Operand.ofAddr, Operand.fits, nnn.isLt]

theorem OperandsFit.cls : OperandsFit.Statement .cls := rfl
theorem OperandsFit.ret : OperandsFit.Statement .ret := rfl
theorem OperandsFit.jp (nnn : Addr) : OperandsFit.Statement (.jp nnn) := by
  simp [OperandsFit.Statement, Instr.wellFormed, Instr.operands, OperandsFit.addr]
theorem OperandsFit.call (nnn : Addr) : OperandsFit.Statement (.call nnn) := by
  simp [OperandsFit.Statement, Instr.wellFormed, Instr.operands, OperandsFit.addr]
theorem OperandsFit.seImm (x : Reg) (nn : Byte) : OperandsFit.Statement (.seImm x nn) := by
  simp [OperandsFit.Statement, Instr.wellFormed, Instr.operands, OperandsFit.reg, OperandsFit.byte]
theorem OperandsFit.sneImm (x : Reg) (nn : Byte) : OperandsFit.Statement (.sneImm x nn) := by
  simp [OperandsFit.Statement, Instr.wellFormed, Instr.operands, OperandsFit.reg, OperandsFit.byte]
theorem OperandsFit.seReg (x y : Reg) : OperandsFit.Statement (.seReg x y) := by
  simp [OperandsFit.Statement, Instr.wellFormed, Instr.operands, OperandsFit.reg]
theorem OperandsFit.ldImm (x : Reg) (nn : Byte) : OperandsFit.Statement (.ldImm x nn) := by
  simp [OperandsFit.Statement, Instr.wellFormed, Instr.operands, OperandsFit.reg, OperandsFit.byte]
theorem OperandsFit.addImm (x : Reg) (nn : Byte) : OperandsFit.Statement (.addImm x nn) := by
  simp [OperandsFit.Statement, Instr.wellFormed, Instr.operands, OperandsFit.reg, OperandsFit.byte]
theorem OperandsFit.ldReg (x y : Reg) : OperandsFit.Statement (.ldReg x y) := by
  simp [OperandsFit.Statement, Instr.wellFormed, Instr.operands, OperandsFit.reg]
theorem OperandsFit.orReg (x y : Reg) : OperandsFit.Statement (.orReg x y) := by
  simp [OperandsFit.Statement, Instr.wellFormed, Instr.operands, OperandsFit.reg]
theorem OperandsFit.andReg (x y : Reg) : OperandsFit.Statement (.andReg x y) := by
  simp [OperandsFit.Statement, Instr.wellFormed, Instr.operands, OperandsFit.reg]
theorem OperandsFit.xorReg (x y : Reg) : OperandsFit.Statement (.xorReg x y) := by
  simp [OperandsFit.Statement, Instr.wellFormed, Instr.operands, OperandsFit.reg]
theorem OperandsFit.addReg (x y : Reg) : OperandsFit.Statement (.addReg x y) := by
  simp [OperandsFit.Statement, Instr.wellFormed, Instr.operands, OperandsFit.reg]
theorem OperandsFit.subReg (x y : Reg) : OperandsFit.Statement (.subReg x y) := by
  simp [OperandsFit.Statement, Instr.wellFormed, Instr.operands, OperandsFit.reg]
theorem OperandsFit.shr (x y : Reg) : OperandsFit.Statement (.shr x y) := by
  simp [OperandsFit.Statement, Instr.wellFormed, Instr.operands, OperandsFit.reg]
theorem OperandsFit.subnReg (x y : Reg) : OperandsFit.Statement (.subnReg x y) := by
  simp [OperandsFit.Statement, Instr.wellFormed, Instr.operands, OperandsFit.reg]
theorem OperandsFit.shl (x y : Reg) : OperandsFit.Statement (.shl x y) := by
  simp [OperandsFit.Statement, Instr.wellFormed, Instr.operands, OperandsFit.reg]
theorem OperandsFit.sneReg (x y : Reg) : OperandsFit.Statement (.sneReg x y) := by
  simp [OperandsFit.Statement, Instr.wellFormed, Instr.operands, OperandsFit.reg]
theorem OperandsFit.ldI (nnn : Addr) : OperandsFit.Statement (.ldI nnn) := by
  simp [OperandsFit.Statement, Instr.wellFormed, Instr.operands, OperandsFit.addr]
theorem OperandsFit.jpV0 (nnn : Addr) : OperandsFit.Statement (.jpV0 nnn) := by
  simp [OperandsFit.Statement, Instr.wellFormed, Instr.operands, OperandsFit.addr]
theorem OperandsFit.rnd (x : Reg) (nn : Byte) : OperandsFit.Statement (.rnd x nn) := by
  simp [OperandsFit.Statement, Instr.wellFormed, Instr.operands, OperandsFit.reg, OperandsFit.byte]
theorem OperandsFit.drw (x y : Reg) (n : Fin 16) : OperandsFit.Statement (.drw x y n) := by
  simp [OperandsFit.Statement, Instr.wellFormed, Instr.operands, OperandsFit.reg]
theorem OperandsFit.skp (x : Reg) : OperandsFit.Statement (.skp x) := by
  simp [OperandsFit.Statement, Instr.wellFormed, Instr.operands, OperandsFit.reg]
theorem OperandsFit.sknp (x : Reg) : OperandsFit.Statement (.sknp x) := by
  simp [OperandsFit.Statement, Instr.wellFormed, Instr.operands, OperandsFit.reg]
theorem OperandsFit.ldVxDt (x : Reg) : OperandsFit.Statement (.ldVxDt x) := by
  simp [OperandsFit.Statement, Instr.wellFormed, Instr.operands, OperandsFit.reg]
theorem OperandsFit.ldKey (x : Reg) : OperandsFit.Statement (.ldKey x) := by
  simp [OperandsFit.Statement, Instr.wellFormed, Instr.operands, OperandsFit.reg]
theorem OperandsFit.ldDtVx (x : Reg) : OperandsFit.Statement (.ldDtVx x) := by
  simp [OperandsFit.Statement, Instr.wellFormed, Instr.operands, OperandsFit.reg]
theorem OperandsFit.ldStVx (x : Reg) : OperandsFit.Statement (.ldStVx x) := by
  simp [OperandsFit.Statement, Instr.wellFormed, Instr.operands, OperandsFit.reg]
theorem OperandsFit.addI (x : Reg) : OperandsFit.Statement (.addI x) := by
  simp [OperandsFit.Statement, Instr.wellFormed, Instr.operands, OperandsFit.reg]
theorem OperandsFit.ldFont (x : Reg) : OperandsFit.Statement (.ldFont x) := by
  simp [OperandsFit.Statement, Instr.wellFormed, Instr.operands, OperandsFit.reg]
theorem OperandsFit.ldBcd (x : Reg) : OperandsFit.Statement (.ldBcd x) := by
  simp [OperandsFit.Statement, Instr.wellFormed, Instr.operands, OperandsFit.reg]
theorem OperandsFit.storeRegs (x : Reg) : OperandsFit.Statement (.storeRegs x) := by
  simp [OperandsFit.Statement, Instr.wellFormed, Instr.operands, OperandsFit.reg]
theorem OperandsFit.loadRegs (x : Reg) : OperandsFit.Statement (.loadRegs x) := by
  simp [OperandsFit.Statement, Instr.wellFormed, Instr.operands, OperandsFit.reg]

/-- The encoding selects a row of the table of spec/30_encoding.md R94, and that row's instruction is this one. -/
def EncodeSelectsRow.Statement (i : Instr) : Prop :=
  ∃ r ∈ opcodeTable, r.selects (encode i) = true ∧ r.build (encode i) = i

/-- The row at a place of the table. -/
theorem EncodeSelectsRow.of_row {i : Instr} (k : Fin 34) (hs : (opcodeTable[k]'k.isLt).selects (encode i) = true)
    (hb : (opcodeTable[k]'k.isLt).build (encode i) = i) : EncodeSelectsRow.Statement i :=
  ⟨_, List.getElem_mem k.isLt, hs, hb⟩

theorem EncodeSelectsRow.cls : EncodeSelectsRow.Statement .cls := of_row 0 rfl rfl
theorem EncodeSelectsRow.ret : EncodeSelectsRow.Statement .ret := of_row 1 rfl rfl
theorem EncodeSelectsRow.jp (nnn : Addr) : EncodeSelectsRow.Statement (.jp nnn) :=
  of_row 2 (beq_iff_eq.2 (encodeNNN_mask _ _)) (congrArg Instr.jp (fieldNNN_encodeNNN _ _))
theorem EncodeSelectsRow.call (nnn : Addr) : EncodeSelectsRow.Statement (.call nnn) :=
  of_row 3 (beq_iff_eq.2 (encodeNNN_mask _ _)) (congrArg Instr.call (fieldNNN_encodeNNN _ _))
theorem EncodeSelectsRow.seImm (x : Reg) (nn : Byte) : EncodeSelectsRow.Statement (.seImm x nn) :=
  of_row 6 (beq_iff_eq.2 (encodeXNN_mask _ _ _)) (congrArg₂ Instr.seImm (fieldX_encodeXNN _ _ _) (fieldNN_encodeXNN _ _ _))
theorem EncodeSelectsRow.sneImm (x : Reg) (nn : Byte) : EncodeSelectsRow.Statement (.sneImm x nn) :=
  of_row 7 (beq_iff_eq.2 (encodeXNN_mask _ _ _)) (congrArg₂ Instr.sneImm (fieldX_encodeXNN _ _ _) (fieldNN_encodeXNN _ _ _))
theorem EncodeSelectsRow.seReg (x y : Reg) : EncodeSelectsRow.Statement (.seReg x y) :=
  of_row 12 (beq_iff_eq.2 (encodeXYN_mask_sub _ _ _ _)) (congrArg₂ Instr.seReg (fieldX_encodeXYN _ _ _ _) (fieldY_encodeXYN _ _ _ _))
theorem EncodeSelectsRow.ldImm (x : Reg) (nn : Byte) : EncodeSelectsRow.Statement (.ldImm x nn) :=
  of_row 8 (beq_iff_eq.2 (encodeXNN_mask _ _ _)) (congrArg₂ Instr.ldImm (fieldX_encodeXNN _ _ _) (fieldNN_encodeXNN _ _ _))
theorem EncodeSelectsRow.addImm (x : Reg) (nn : Byte) : EncodeSelectsRow.Statement (.addImm x nn) :=
  of_row 9 (beq_iff_eq.2 (encodeXNN_mask _ _ _)) (congrArg₂ Instr.addImm (fieldX_encodeXNN _ _ _) (fieldNN_encodeXNN _ _ _))
theorem EncodeSelectsRow.ldReg (x y : Reg) : EncodeSelectsRow.Statement (.ldReg x y) :=
  of_row 13 (beq_iff_eq.2 (encodeXYN_mask_sub _ _ _ _)) (congrArg₂ Instr.ldReg (fieldX_encodeXYN _ _ _ _) (fieldY_encodeXYN _ _ _ _))
theorem EncodeSelectsRow.orReg (x y : Reg) : EncodeSelectsRow.Statement (.orReg x y) :=
  of_row 14 (beq_iff_eq.2 (encodeXYN_mask_sub _ _ _ _)) (congrArg₂ Instr.orReg (fieldX_encodeXYN _ _ _ _) (fieldY_encodeXYN _ _ _ _))
theorem EncodeSelectsRow.andReg (x y : Reg) : EncodeSelectsRow.Statement (.andReg x y) :=
  of_row 15 (beq_iff_eq.2 (encodeXYN_mask_sub _ _ _ _)) (congrArg₂ Instr.andReg (fieldX_encodeXYN _ _ _ _) (fieldY_encodeXYN _ _ _ _))
theorem EncodeSelectsRow.xorReg (x y : Reg) : EncodeSelectsRow.Statement (.xorReg x y) :=
  of_row 16 (beq_iff_eq.2 (encodeXYN_mask_sub _ _ _ _)) (congrArg₂ Instr.xorReg (fieldX_encodeXYN _ _ _ _) (fieldY_encodeXYN _ _ _ _))
theorem EncodeSelectsRow.addReg (x y : Reg) : EncodeSelectsRow.Statement (.addReg x y) :=
  of_row 17 (beq_iff_eq.2 (encodeXYN_mask_sub _ _ _ _)) (congrArg₂ Instr.addReg (fieldX_encodeXYN _ _ _ _) (fieldY_encodeXYN _ _ _ _))
theorem EncodeSelectsRow.subReg (x y : Reg) : EncodeSelectsRow.Statement (.subReg x y) :=
  of_row 18 (beq_iff_eq.2 (encodeXYN_mask_sub _ _ _ _)) (congrArg₂ Instr.subReg (fieldX_encodeXYN _ _ _ _) (fieldY_encodeXYN _ _ _ _))
theorem EncodeSelectsRow.shr (x y : Reg) : EncodeSelectsRow.Statement (.shr x y) :=
  of_row 19 (beq_iff_eq.2 (encodeXYN_mask_sub _ _ _ _)) (congrArg₂ Instr.shr (fieldX_encodeXYN _ _ _ _) (fieldY_encodeXYN _ _ _ _))
theorem EncodeSelectsRow.subnReg (x y : Reg) : EncodeSelectsRow.Statement (.subnReg x y) :=
  of_row 20 (beq_iff_eq.2 (encodeXYN_mask_sub _ _ _ _)) (congrArg₂ Instr.subnReg (fieldX_encodeXYN _ _ _ _) (fieldY_encodeXYN _ _ _ _))
theorem EncodeSelectsRow.shl (x y : Reg) : EncodeSelectsRow.Statement (.shl x y) :=
  of_row 21 (beq_iff_eq.2 (encodeXYN_mask_sub _ _ _ _)) (congrArg₂ Instr.shl (fieldX_encodeXYN _ _ _ _) (fieldY_encodeXYN _ _ _ _))
theorem EncodeSelectsRow.sneReg (x y : Reg) : EncodeSelectsRow.Statement (.sneReg x y) :=
  of_row 22 (beq_iff_eq.2 (encodeXYN_mask_sub _ _ _ _)) (congrArg₂ Instr.sneReg (fieldX_encodeXYN _ _ _ _) (fieldY_encodeXYN _ _ _ _))
theorem EncodeSelectsRow.ldI (nnn : Addr) : EncodeSelectsRow.Statement (.ldI nnn) :=
  of_row 4 (beq_iff_eq.2 (encodeNNN_mask _ _)) (congrArg Instr.ldI (fieldNNN_encodeNNN _ _))
theorem EncodeSelectsRow.jpV0 (nnn : Addr) : EncodeSelectsRow.Statement (.jpV0 nnn) :=
  of_row 5 (beq_iff_eq.2 (encodeNNN_mask _ _)) (congrArg Instr.jpV0 (fieldNNN_encodeNNN _ _))
theorem EncodeSelectsRow.rnd (x : Reg) (nn : Byte) : EncodeSelectsRow.Statement (.rnd x nn) :=
  of_row 10 (beq_iff_eq.2 (encodeXNN_mask _ _ _)) (congrArg₂ Instr.rnd (fieldX_encodeXNN _ _ _) (fieldNN_encodeXNN _ _ _))
theorem EncodeSelectsRow.drw (x y : Reg) (n : Fin 16) : EncodeSelectsRow.Statement (.drw x y n) :=
  of_row 11 (beq_iff_eq.2 (encodeXYN_mask _ _ _ _)) (congr (congrArg₂ Instr.drw (fieldX_encodeXYN _ _ _ _) (fieldY_encodeXYN _ _ _ _)) (fieldN_encodeXYN _ _ _ _))
theorem EncodeSelectsRow.skp (x : Reg) : EncodeSelectsRow.Statement (.skp x) :=
  of_row 23 (beq_iff_eq.2 (encodeXs_mask _ _ _)) (congrArg Instr.skp (fieldX_encodeXs _ _ _))
theorem EncodeSelectsRow.sknp (x : Reg) : EncodeSelectsRow.Statement (.sknp x) :=
  of_row 24 (beq_iff_eq.2 (encodeXs_mask _ _ _)) (congrArg Instr.sknp (fieldX_encodeXs _ _ _))
theorem EncodeSelectsRow.ldVxDt (x : Reg) : EncodeSelectsRow.Statement (.ldVxDt x) :=
  of_row 25 (beq_iff_eq.2 (encodeXs_mask _ _ _)) (congrArg Instr.ldVxDt (fieldX_encodeXs _ _ _))
theorem EncodeSelectsRow.ldKey (x : Reg) : EncodeSelectsRow.Statement (.ldKey x) :=
  of_row 26 (beq_iff_eq.2 (encodeXs_mask _ _ _)) (congrArg Instr.ldKey (fieldX_encodeXs _ _ _))
theorem EncodeSelectsRow.ldDtVx (x : Reg) : EncodeSelectsRow.Statement (.ldDtVx x) :=
  of_row 27 (beq_iff_eq.2 (encodeXs_mask _ _ _)) (congrArg Instr.ldDtVx (fieldX_encodeXs _ _ _))
theorem EncodeSelectsRow.ldStVx (x : Reg) : EncodeSelectsRow.Statement (.ldStVx x) :=
  of_row 28 (beq_iff_eq.2 (encodeXs_mask _ _ _)) (congrArg Instr.ldStVx (fieldX_encodeXs _ _ _))
theorem EncodeSelectsRow.addI (x : Reg) : EncodeSelectsRow.Statement (.addI x) :=
  of_row 29 (beq_iff_eq.2 (encodeXs_mask _ _ _)) (congrArg Instr.addI (fieldX_encodeXs _ _ _))
theorem EncodeSelectsRow.ldFont (x : Reg) : EncodeSelectsRow.Statement (.ldFont x) :=
  of_row 30 (beq_iff_eq.2 (encodeXs_mask _ _ _)) (congrArg Instr.ldFont (fieldX_encodeXs _ _ _))
theorem EncodeSelectsRow.ldBcd (x : Reg) : EncodeSelectsRow.Statement (.ldBcd x) :=
  of_row 31 (beq_iff_eq.2 (encodeXs_mask _ _ _)) (congrArg Instr.ldBcd (fieldX_encodeXs _ _ _))
theorem EncodeSelectsRow.storeRegs (x : Reg) : EncodeSelectsRow.Statement (.storeRegs x) :=
  of_row 32 (beq_iff_eq.2 (encodeXs_mask _ _ _)) (congrArg Instr.storeRegs (fieldX_encodeXs _ _ _))
theorem EncodeSelectsRow.loadRegs (x : Reg) : EncodeSelectsRow.Statement (.loadRegs x) :=
  of_row 33 (beq_iff_eq.2 (encodeXs_mask _ _ _)) (congrArg Instr.loadRegs (fieldX_encodeXs _ _ _))

end Sys2Proof.Laws
end

