-- ==== Sys2Proof/Laws/Screen.lean ====
section
/-! SUPPORT. What a draw does, in closed form: each pixel is inverted exactly when the sprite has a set bit there, and the
collision is that some such pixel was on. The sprite is at most 8 columns by 32 rows, so no pixel is reached twice
(spec/44_display.md R253). -/

namespace Sys2Proof.Machine

/-- A flip inverts its pixel and no other. -/
theorem Display.pixel_flip (d : Display) (px qx : Fin 64) (py qy : Fin 32) :
    (d.flip px py).pixel qx qy = (d.pixel qx qy ^^ decide (qx = px ∧ qy = py)) := by
  unfold Display.flip Display.pixel
  simp only [Fin.getElem_fin, Vector.getElem_set]
  by_cases hy : qy = py
  · subst hy
    by_cases hx : qx = px
    · subst hx
      simp
    · have hx' : ¬ px.val = qx.val := fun h => hx (Fin.ext h.symm)
      simp [hx, hx']
  · have hy' : ¬ py.val = qy.val := fun h => hy (Fin.ext h.symm)
    simp [hy, hy']

/-- The display column and row a sprite position is drawn at. -/
theorem Fin.ofNat_eq_iff {n m : Nat} [NeZero n] (q : Fin n) : q = Fin.ofNat n m ↔ q.val = m % n := by
  rw [Fin.ext_iff, Fin.val_ofNat]

/-- The pixels the first k columns of a sprite row reach. -/
def rowCovers (x0 y : Nat) (b : Byte) (k : Nat) (px : Fin 64) (py : Fin 32) : Prop :=
  ∃ col < k, b.getLsbD (7 - col) = true ∧ px.val = (x0 + col) % 64 ∧ py.val = y % 32

theorem rowCovers_succ {x0 y k : Nat} {b : Byte} {px : Fin 64} {py : Fin 32} :
    rowCovers x0 y b (k + 1) px py ↔
      rowCovers x0 y b k px py ∨ (b.getLsbD (7 - k) = true ∧ px.val = (x0 + k) % 64 ∧ py.val = y % 32) := by
  constructor
  · rintro ⟨col, hcol, h⟩
    rcases Nat.lt_succ_iff_lt_or_eq.1 hcol with hlt | rfl
    · exact .inl ⟨col, hlt, h⟩
    · exact .inr h
  · rintro (⟨col, hcol, h⟩ | h)
    · exact ⟨col, Nat.lt_succ_of_lt hcol, h⟩
    · exact ⟨k, Nat.lt_succ_self k, h⟩

/-- Drawing the first k columns of a row: no column comes back to one already drawn. -/
theorem drawColumns_eq (x0 y : Nat) (b : Byte) (g : Drawing) (k : Nat) (hk : k ≤ 64) :
    (∀ px py, (((List.range k).foldl (drawColumn x0 y b) g).display.pixel px py = true ↔
        (g.display.pixel px py = true ↔ ¬ rowCovers x0 y b k px py))) ∧
    (((List.range k).foldl (drawColumn x0 y b) g).collided = true ↔
      g.collided = true ∨ ∃ px py, g.display.pixel px py = true ∧ rowCovers x0 y b k px py) := by
  induction k with
  | zero => simp [rowCovers]
  | succ k ih =>
    obtain ⟨ihp, ihc⟩ := ih (by omega)
    rw [List.range_succ, List.foldl_append, List.foldl_cons, List.foldl_nil]
    generalize (List.range k).foldl (drawColumn x0 y b) g = g' at ihp ihc
    unfold drawColumn
    split
    · rename_i hb
      have hnew : ¬ rowCovers x0 y b k (Fin.ofNat 64 (x0 + k)) (Fin.ofNat 32 y) := by
        rintro ⟨col, hcol, -, hx, -⟩
        rw [Fin.val_ofNat] at hx
        omega
      refine ⟨fun px py => ?_, ?_⟩
      · have hp := ihp px py
        simp only [Display.pixel_flip, rowCovers_succ, hb, true_and]
        by_cases hq : px = Fin.ofNat 64 (x0 + k) ∧ py = Fin.ofNat 32 y
        · have hval : px.val = (x0 + k) % 64 ∧ py.val = y % 32 := by
            rwa [Fin.ofNat_eq_iff, Fin.ofNat_eq_iff] at hq
          have hnew' : ¬ rowCovers x0 y b k px py := by rwa [hq.1, hq.2]
          simp only [hnew', not_false_eq_true, iff_true] at hp
          simp only [hq, and_self, decide_true, Bool.xor_true]
          rw [← hq.1, ← hq.2, Bool.not_eq_true', ← Bool.not_eq_true, hp]
          tauto
        · have hq' : ¬ (px.val = (x0 + k) % 64 ∧ py.val = y % 32) := by
            rwa [Fin.ofNat_eq_iff, Fin.ofNat_eq_iff] at hq
          simp only [hq, hq', or_false, decide_false, Bool.xor_false]
          exact hp
      · have hp := ihp (Fin.ofNat 64 (x0 + k)) (Fin.ofNat 32 y)
        simp only [hnew, not_false_eq_true, iff_true] at hp
        simp only [Bool.or_eq_true, ihc, rowCovers_succ, hb, true_and, hp]
        constructor
        · rintro ((h | ⟨px, py, h, hcov⟩) | h)
          · exact .inl h
          · exact .inr ⟨px, py, h, .inl hcov⟩
          · exact .inr ⟨_, _, h, .inr ⟨Fin.val_ofNat .., Fin.val_ofNat ..⟩⟩
        · rintro (h | ⟨px, py, h, hcov | ⟨hx, hy⟩⟩)
          · exact .inl (.inl h)
          · exact .inl (.inr ⟨px, py, h, hcov⟩)
          · rw [← Fin.ofNat_eq_iff] at hx hy
            subst hx hy
            exact .inr h
    · rename_i hb
      simp only [rowCovers_succ, hb, Bool.false_eq_true, false_and, or_false]
      exact ⟨ihp, ihc⟩

/-- Drawing one row. -/
theorem drawRow_eq (x0 y : Nat) (b : Byte) (g : Drawing) :
    (∀ px py, ((drawRow x0 y b g).display.pixel px py = true ↔
        (g.display.pixel px py = true ↔ ¬ rowCovers x0 y b 8 px py))) ∧
    ((drawRow x0 y b g).collided = true ↔
      g.collided = true ∨ ∃ px py, g.display.pixel px py = true ∧ rowCovers x0 y b 8 px py) :=
  drawColumns_eq x0 y b g 8 (by omega)

/-- The pixels a sprite reaches: row r of it, byte b, is drawn at y0 + r. -/
def spriteCovers (x0 : Nat) (y0 : Nat) (sprite : List Byte) (px : Fin 64) (py : Fin 32) : Prop :=
  ∃ row col, ∃ h : row < sprite.length, col < 8 ∧ (sprite[row]).getLsbD (7 - col) = true ∧
    px.val = (x0 + col) % 64 ∧ py.val = (y0 + row) % 32

theorem spriteCovers_cons {x0 y0 : Nat} {b : Byte} {bs : List Byte} {px : Fin 64} {py : Fin 32} :
    spriteCovers x0 y0 (b :: bs) px py ↔ rowCovers x0 y0 b 8 px py ∨ spriteCovers x0 (y0 + 1) bs px py := by
  constructor
  · rintro ⟨row, col, hr, hcol, hb, hx, hy⟩
    cases row with
    | zero => exact .inl ⟨col, hcol, hb, hx, hy⟩
    | succ row =>
      rw [List.length_cons] at hr
      exact .inr ⟨row, col, by omega, hcol, hb, hx, by rw [hy]; congr 1; omega⟩
  · rintro (⟨col, hcol, hb, hx, hy⟩ | ⟨row, col, hr, hcol, hb, hx, hy⟩)
    · exact ⟨0, col, by simp, hcol, hb, hx, hy⟩
    · exact ⟨row + 1, col, by simpa using hr, hcol, hb, hx, by rw [hy]; congr 1; omega⟩

/-- What a draw does to every pixel, and its collision (spec/44_display.md R252, R254). -/
theorem drawRows_eq (x0 y0 : Nat) (sprite : List Byte) (g : Drawing) (hlen : sprite.length ≤ 32) :
    (∀ px py, ((drawRows x0 y0 sprite g).display.pixel px py = true ↔
        (g.display.pixel px py = true ↔ ¬ spriteCovers x0 y0 sprite px py))) ∧
    ((drawRows x0 y0 sprite g).collided = true ↔
      g.collided = true ∨ ∃ px py, g.display.pixel px py = true ∧ spriteCovers x0 y0 sprite px py) := by
  induction sprite generalizing y0 g with
  | nil => simp [drawRows, spriteCovers]
  | cons b bs ih =>
    rw [List.length_cons] at hlen
    obtain ⟨ihp, ihc⟩ := ih (y0 + 1) (drawRow x0 y0 b g) (by omega)
    obtain ⟨rp, rc⟩ := drawRow_eq x0 y0 b g
    have hdisj : ∀ px py, rowCovers x0 y0 b 8 px py → ¬ spriteCovers x0 (y0 + 1) bs px py := by
      rintro px py ⟨_, _, _, _, hy⟩ ⟨row, _, hr, _, _, _, hy'⟩
      omega
    rw [drawRows]
    refine ⟨fun px py => ?_, ?_⟩
    · have := hdisj px py
      rw [ihp, rp, spriteCovers_cons]
      tauto
    · rw [ihc, rc]
      constructor
      · rintro ((h | ⟨px, py, h, hc⟩) | ⟨px, py, h, hc⟩)
        · exact .inl h
        · exact .inr ⟨px, py, h, spriteCovers_cons.2 (.inl hc)⟩
        · refine .inr ⟨px, py, ?_, spriteCovers_cons.2 (.inr hc)⟩
          have := hdisj px py
          have := (rp px py).1 h
          tauto
      · rintro (h | ⟨px, py, h, hc⟩)
        · exact .inl (.inl h)
        · rcases spriteCovers_cons.1 hc with hc | hc
          · exact .inl (.inr ⟨px, py, h, hc⟩)
          · refine .inr ⟨px, py, (rp px py).2 ?_, hc⟩
            have := hdisj px py
            tauto

@[simp] theorem Display.pixel_blank (px : Fin 64) (py : Fin 32) : Display.blank.pixel px py = false := by
  simp [Display.blank, Display.pixel]

/-- A display is its pixels. -/
theorem Display.ext_pixel {d d' : Display} (h : ∀ px py, d.pixel px py = d'.pixel px py) : d = d' := by
  ext y hy x hx
  exact h ⟨x, hx⟩ ⟨y, hy⟩

end Sys2Proof.Machine
end

