-- ==== Sys2Proof/Laws/Step.lean ====
section
/-! SUPPORT. What a step can do, said once: the host's next operation, and for a cycle its fetch fault, its fatal fault, or
its completed Execute. -/

namespace Sys2Proof.Machine

variable {s s' t : State} {keys : Vector Bool 16} {rnd : Byte}

/-- The operation at the head of the script is performed. -/
theorem step_of_pending {op : HostOp} {rest : List HostOp} (h : s.pending = op :: rest) :
    step s = perform op { s with pending := rest } := by
  simp only [step, performNext, State.nextOp, h]

/-- With an empty script the host performs a cycle whose inputs are free values. -/
theorem step_of_empty (h : s.pending = []) :
    step s = perform (.cycle (Config.freeKeys s.draws) (Config.freeByte s.draws)) { s with draws := s.draws + 1 } := by
  simp only [step, performNext, State.nextOp, h]

/-- A step at which the host performs a cycle is that cycle. -/
theorem step_of_hostCycle (h : s.HostCycle keys rnd s') : step s = cycle keys rnd s' := by
  rcases h with ⟨hp, hs⟩ | ⟨hp, rfl, rfl, rfl⟩
  · rw [step_of_pending hp, ← hs]
    rfl
  · rw [step_of_empty hp]
    rfl

/-- Taking the operation off leaves the core alone. -/
theorem hostCycle_arch (h : s.HostCycle keys rnd s') : s'.toArch = s.toArch ∧ s'.font = s.font := by
  rcases h with ⟨_, hs⟩ | ⟨_, _, _, rfl⟩
  · rw [hs]
    exact ⟨rfl, rfl⟩
  · exact ⟨rfl, rfl⟩

/-- Every step performs one operation of the host. -/
theorem step_cases (s : State) :
    (∃ keys rnd s', s.HostCycle keys rnd s') ∨
    ∃ op rest, s.pending = op :: rest ∧ ∀ keys rnd, op ≠ .cycle keys rnd := by
  cases hp : s.pending with
  | nil => exact .inl ⟨_, _, _, .inr ⟨hp, rfl, rfl, rfl⟩⟩
  | cons op rest =>
    cases op with
    | cycle keys rnd => exact .inl ⟨keys, rnd, { s with pending := rest }, .inl ⟨hp, rfl⟩⟩
    | reset | load | setQuirk | read => exact .inr ⟨_, _, rfl, fun _ _ h => by cases h⟩

/-- An image fits iff it has at most 3584 bytes (spec/70_reset_and_hazards.md R344). -/
theorem imageFits_iff (image : List Byte) : imageFits image = true ↔ image.length ≤ 3584 := decide_eq_true_iff

/-- The word at PC does not change when the operation is taken off. -/
theorem hostCycle_wordAtPc (h : s.HostCycle keys rnd s') : s'.wordAtPc = s.wordAtPc := by
  rcases h with ⟨_, hs⟩ | ⟨_, _, _, rfl⟩
  · rw [hs]
    rfl
  · rfl

/-- The fetch fails exactly at PC >= 0x0FFF (spec/40_cycle.md R124). -/
theorem fetchWord_eq (s : State) : s.fetchWord = if s.pc.toNat < 0x0FFF then some s.wordAtPc else none := by
  unfold State.fetchWord
  by_cases h : s.pc.toNat < 0x0FFF
  · rw [memRead_eq_some (by omega), memRead_eq_some (by omega), if_pos h]
    rfl
  · rw [if_neg h]
    by_cases h' : s.pc.toNat < 4096
    · rw [memRead_eq_some h', memRead_eq_none (by omega)]
    · rw [memRead_eq_none (by omega)]

/-- A cycle of a core that has not halted: a fetch fault at PC >= 0x0FFF, Execute otherwise. -/
theorem cycle_eq (hh : s.halted = false) :
    cycle keys rnd s = if s.pc.toNat < 0x0FFF
      then onNext State.endCycle (execWord s.wordAtPc (s.atExecute keys rnd))
      else .next { s with toArch := s.toArch.faulted .addressFault none, inCycle := none, out := .quiet } := by
  have hw : (s.beginCycle keys rnd).fetchWord = if s.pc.toNat < 0x0FFF then some s.wordAtPc else none :=
    fetchWord_eq (s.beginCycle keys rnd)
  rw [cycle, hh, if_neg Bool.false_ne_true, runCycle, hw]
  by_cases h : s.pc.toNat < 0x0FFF
  · rw [if_pos h, if_pos h]
    rfl
  · rw [if_neg h, if_neg h]
    rfl

/-- A cycle of a halted core changes nothing (spec/40_cycle.md R122). -/
theorem cycle_halted (hh : s.halted = true) : cycle keys rnd s = .next { s with out := .quiet } := by
  rw [cycle, if_pos hh]

/-- A fault raised while a cycle runs, in the words of `Arch.faulted` (spec/60_exceptions.md R303). -/
theorem raise_in_cycle {c : CycleContext} (h : s.inCycle = some c) (cause : FaultCause) :
    s.raise cause = .next { s with toArch := c.start.faulted cause (some s.opcode) } := by
  rw [State.raise, takeFault_in_cycle h]
  rfl

/-- The end of a cycle whose instruction raised a fatal fault: S0 with the record (spec/60_exceptions.md R303). -/
theorem endCycle_raise (s : State) (keys : Vector Bool 16) (rnd : Byte) (cause : FaultCause) :
    onNext State.endCycle ((s.atExecute keys rnd).raise cause) =
      .next { s with toArch := s.toArch.faulted cause (some s.wordAtPc), inCycle := none, out := .quiet } := rfl

/-- The end of a cycle that has not halted: both timers decremented (spec/40_cycle.md R125). -/
theorem endCycle_running (t : State) (h : t.halted = false) :
    t.endCycle = { t with dt := tick t.dt, st := tick t.st, inCycle := none } := by
  have hn : ¬ t.halted = true := by simp [h]
  simp only [State.endCycle, if_neg hn]
  rfl

theorem endCycle_halted (t : State) (h : t.halted = true) : t.endCycle = { t with inCycle := none } := by
  simp only [State.endCycle, if_pos h]

theorem tick_eq (b : Byte) : tick b = decremented b := by
  unfold tick decremented
  split
  · subst b
    rfl
  · rename_i h
    have : b.toNat ≠ 0 := fun h0 => h (BitVec.eq_of_toNat_eq h0)
    apply BitVec.eq_of_toNat_eq
    rw [BitVec.toNat_sub, BitVec.toNat_ofNat]
    have := b.isLt
    simp
    omega

/-- What a cycle of a core that has not halted comes to: a fetch fault, a fatal fault of the instruction, or a completed
Execute, which keeps what no instruction writes but the event, followed by the timers. -/
theorem cycle_cases (hh : s.halted = false) :
    (0x0FFF ≤ s.pc.toNat ∧
      cycle keys rnd s =
        .next { s with toArch := s.toArch.faulted .addressFault none, inCycle := none, out := .quiet }) ∨
    (s.pc.toNat < 0x0FFF ∧ ∃ cause, cause ≠ .noFault ∧
      cycle keys rnd s =
        .next { s with toArch := s.toArch.faulted cause (some s.wordAtPc), inCycle := none, out := .quiet }) ∨
    (s.pc.toNat < 0x0FFF ∧ ∃ u, execWord s.wordAtPc (s.atExecute keys rnd) = .next u ∧ u.halted = false ∧
      Keeps (s.atExecute keys rnd) { u with out := .quiet } ∧
      cycle keys rnd s = .next { u with dt := tick u.dt, st := tick u.st, inCycle := none }) := by
  rw [cycle_eq hh]
  by_cases h : s.pc.toNat < 0x0FFF
  · right
    rw [if_pos h]
    have hfin : ∀ u, execWord s.wordAtPc (s.atExecute keys rnd) = .next u →
        Keeps (s.atExecute keys rnd) { u with out := .quiet } →
        s.pc.toNat < 0x0FFF ∧ ∃ u, execWord s.wordAtPc (s.atExecute keys rnd) = .next u ∧ u.halted = false ∧
          Keeps (s.atExecute keys rnd) { u with out := .quiet } ∧
          onNext State.endCycle (execWord s.wordAtPc (s.atExecute keys rnd)) =
            .next { u with dt := tick u.dt, st := tick u.st, inCycle := none } := by
      intro u hu hk
      have hu' : u.halted = false := hk.halted.trans hh
      refine ⟨h, u, hu, hu', hk, ?_⟩
      rw [hu, onNext, endCycle_running u hu']
    cases hd : decode s.wordAtPc with
    | instr i =>
      have he : execWord s.wordAtPc (s.atExecute keys rnd) = exec i (s.atExecute keys rnd) := by
        rw [execWord, hd]
      rcases exec_effect i (s.atExecute keys rnd) with ⟨cause, hc, hr⟩ | ⟨u, hu, hk⟩
      · left
        refine ⟨h, cause, hc, ?_⟩
        rw [he, hr, endCycle_raise]
      · right
        refine hfin u (he.trans hu) ?_
        have hout : u.out = .quiet := hk.out
        rw [show ({ u with out := .quiet } : State) = u by rw [← hout]]
        exact hk
    | unknown w =>
      right
      have he : execWord s.wordAtPc (s.atExecute keys rnd) =
          .next { s.atExecute keys rnd with out := ⟨some w, none⟩ } := by
        rw [execWord, hd]
        rfl
      exact hfin _ he ⟨rfl, rfl, rfl, rfl, rfl, rfl, rfl, rfl, rfl, rfl, rfl, rfl, id⟩
  · left
    rw [if_neg h]
    exact ⟨by omega, rfl⟩

end Sys2Proof.Machine
end

