-- ==== Sys2Proof/Tests/Slice0.lean ====
section
/-! SUPPORT. Tests on fixed values, each one step or less. The expected results are those of spec/95_test_vectors.md (the
worked examples S1 to S10 and the derived vectors) and, for the words, of the layouts of spec/30_encoding.md. The last part
gives a witness for the hypotheses of each obligation. -/

namespace Sys2Proof.Tests

open Sys2Proof.Machine

set_option maxRecDepth 4000

/-! ### Well-formedness: each check refuses an ill-formed term -/

theorem test_wf_register_16_refused : Operand.fits ⟨16, 4⟩ = false := by decide
theorem test_wf_byte_256_refused : Operand.fits ⟨256, 8⟩ = false := by decide
theorem test_wf_address_4096_refused : Operand.fits ⟨4096, 12⟩ = false := by decide
theorem test_wf_boundary_operands_accepted :
    Operand.fits ⟨15, 4⟩ = true ∧ Operand.fits ⟨255, 8⟩ = true ∧ Operand.fits ⟨4095, 12⟩ = true := by decide
theorem test_wf_image_3585_refused : imageFits (List.replicate 3585 0) = false := by
  rw [imageFits, List.length_replicate]
  decide
theorem test_wf_image_3584_accepted : imageFits (List.replicate 3584 0) = true := by
  rw [imageFits, List.length_replicate]
  decide

/-! ### Decoding, by words written out from R91 to R94 of spec/30_encoding.md -/

/-- Formats `fixed` and `NNN`: op in w[15:12], NNN in w[11:0]. -/
theorem test_decode_nnn :
    decode 0b0000000011100000 = .instr .cls ∧ decode 0b0000000011101110 = .instr .ret ∧
    decode 0b0001001000110100 = .instr (.jp 0x234) ∧ decode 0b0010001000010000 = .instr (.call 0x210) ∧
    decode 0b1010001100000000 = .instr (.ldI 0x300) ∧ decode 0b1011111111111111 = .instr (.jpV0 0xFFF) := by decide

/-- Format `XNN`: X in w[11:8], NN in w[7:0]. -/
theorem test_decode_xnn :
    decode 0b0011010110100011 = .instr (.seImm 5 0xA3) ∧ decode 0b0100000100000110 = .instr (.sneImm 1 0x06) ∧
    decode 0b0110000011101010 = .instr (.ldImm 0 0xEA) ∧ decode 0b0111111111110000 = .instr (.addImm 15 0xF0) ∧
    decode 0b1100001100001111 = .instr (.rnd 3 0x0F) := by decide

/-- Format `XYs`: X in w[11:8], Y in w[7:4], the selector in w[3:0]. -/
theorem test_decode_xys :
    decode 0b0101001001110000 = .instr (.seReg 2 7) ∧ decode 0b1001001001110000 = .instr (.sneReg 2 7) ∧
    decode 0b1000000100100000 = .instr (.ldReg 1 2) ∧ decode 0b1000000100100001 = .instr (.orReg 1 2) ∧
    decode 0b1000000100100010 = .instr (.andReg 1 2) ∧ decode 0b1000000100100011 = .instr (.xorReg 1 2) ∧
    decode 0b1000000100100100 = .instr (.addReg 1 2) ∧ decode 0b1000000100100101 = .instr (.subReg 1 2) ∧
    decode 0b1000000100100110 = .instr (.shr 1 2) ∧ decode 0b1000000100100111 = .instr (.subnReg 1 2) ∧
    decode 0b1000000100101110 = .instr (.shl 1 2) := by decide

/-- Formats `XYN` and `Xs`: the row count N in w[3:0]; the selector in w[7:0]. -/
theorem test_decode_xyn_xs :
    decode 0b1101000000010101 = .instr (.drw 0 1 5) ∧ decode 0b1110010010011110 = .instr (.skp 4) ∧
    decode 0b1110010010100001 = .instr (.sknp 4) ∧ decode 0b1111000100000111 = .instr (.ldVxDt 1) ∧
    decode 0b1111001000001010 = .instr (.ldKey 2) ∧ decode 0b1111000000010101 = .instr (.ldDtVx 0) ∧
    decode 0b1111001100011000 = .instr (.ldStVx 3) ∧ decode 0b1111001000011110 = .instr (.addI 2) ∧
    decode 0b1111101000101001 = .instr (.ldFont 10) ∧ decode 0b1111000000110011 = .instr (.ldBcd 0) ∧
    decode 0b1111111101010101 = .instr (.storeRegs 15) ∧ decode 0b1111001001100101 = .instr (.loadRegs 2) := by decide

/-- Words of the unknown space (R97, and the vectors of spec/95_test_vectors.md part 2). -/
theorem test_decode_unknown :
    decode 0x0123 = .unknown 0x0123 ∧ decode 0x5121 = .unknown 0x5121 ∧ decode 0x8128 = .unknown 0x8128 ∧
    decode 0x912F = .unknown 0x912F ∧ decode 0xE1FF = .unknown 0xE1FF ∧ decode 0xF1FF = .unknown 0xF1FF ∧
    decode 0x0000 = .unknown 0x0000 := by decide

/-- The encoder writes the same words. -/
theorem test_encode :
    encode (.jp 0x234) = 0x1234 ∧ encode (.seImm 5 0xA3) = 0x35A3 ∧ encode (.subnReg 1 2) = 0x8127 ∧
    encode (.drw 0 1 5) = 0xD015 ∧ encode (.skp 4) = 0xE49E ∧ encode (.loadRegs 2) = 0xF265 := by decide

/-- A word is stored high byte first (spec/20_memory.md R67), and the decoder returns the bytes after it. -/
theorem test_decodeBytes :
    decodeBytes [0x12, 0x34, 0x00, 0xE0] = some (.instr (.jp 0x234), [0x00, 0xE0]) ∧ decodeBytes [0x12] = none := by
  decide

theorem test_decodeTableWord :
    decodeTableWord 16 0x8014 = some (.addReg 0 1) ∧ decodeTableWord 16 0x8018 = none := by decide

/-! ### One step on a small state -/

/-- The keys of a list, pressed. -/
def keysOf (ks : List (Fin 16)) : Vector Bool 16 := Vector.ofFn fun k => decide (k ∈ ks)

/-- The reset state with registers set. -/
def withRegs (rs : List (Reg × Byte)) : State := rs.foldl (fun s r => s.setReg r.1 r.2) State.reset

/-- Bytes stored from an address on. -/
def poke (s : State) (a : Nat) (bytes : List Byte) : State := s.setMem (Memory.copyIn s.font s.mem a bytes)

/-- A cycle that runs the word `w` at the address `a`, with the keys `ks` and the random byte `rnd`. -/
def prepared (s : State) (w : Word) (a : Word := 0x200) (ks : List (Fin 16) := []) (rnd : Byte := 0) : State :=
  { poke s a.toNat [w.extractLsb' 8 8, w.extractLsb' 0 8] with pc := a, pending := [.cycle (keysOf ks) rnd] }

/-- The state after that cycle. -/
def run (s : State) (w : Word) (a : Word := 0x200) (ks : List (Fin 16) := []) (rnd : Byte := 0) : State :=
  match step (prepared s w a ks rnd) with
  | .next t => t
  | .fault _ => s
  | .refused _ => s

/-- The bytes at n addresses from `a` on. -/
def bytesAt (s : State) (a n : Nat) : List Byte := (List.range n).map fun k => s.byteAt (a + k)

/-- The pixels of row `py` that are on, by column. -/
def row (s : State) (py : Fin 32) : List (Fin 64) := (List.finRange 64).filter fun px => s.display[py][px]

/-! Control flow (part 2, "Control flow" and "Skips") -/

theorem test_call : (run State.reset 0x2210).stack[0] = 0x202 ∧ (run State.reset 0x2210).sp = 1 ∧
    (run State.reset 0x2210).pc = 0x210 := by decide
theorem test_call_overflow :
    (run { State.reset with sp := 16 } 0x2300).faultCause = .stackOverflow ∧
    (run { State.reset with sp := 16 } 0x2300).faultWord = some 0x2300 ∧
    (run { State.reset with sp := 16 } 0x2300).pc = 0x200 := by decide
theorem test_ret :
    (run { State.reset with sp := 1, stack := State.reset.stack.set 0 0x206 } 0x00EE).pc = 0x206 ∧
    (run { State.reset with sp := 1, stack := State.reset.stack.set 0 0x206 } 0x00EE).sp = 0 := by decide
theorem test_ret_underflow :
    (run State.reset 0x00EE 0x300).faultCause = .stackUnderflow ∧ (run State.reset 0x00EE 0x300).faultPc = 0x300 ∧
    (run State.reset 0x00EE 0x300).pc = 0x300 := by decide
theorem test_jp : (run State.reset 0x120C 0x20C).pc = 0x20C ∧ (run State.reset 0x1FFF).pc = 0xFFF := by decide
theorem test_jpV0 : (run (withRegs [(0, 0x04)]) 0xB300).pc = 0x304 ∧
    (run (withRegs [(0, 0xFF)]) 0xBFFF).pc = 0x10FE := by decide
theorem test_seImm : (run State.reset 0x3300).pc = 0x204 ∧ (run (withRegs [(3, 1)]) 0x3300).pc = 0x202 ∧
    (run State.reset 0x3000 0xFFC).pc = 0x1000 := by decide
theorem test_sneImm : (run (withRegs [(1, 5)]) 0x4105).pc = 0x202 ∧ (run (withRegs [(1, 5)]) 0x4106).pc = 0x204 := by
  decide
theorem test_seReg : (run (withRegs [(2, 0x42), (7, 0x42)]) 0x5270).pc = 0x204 ∧
    (run (withRegs [(2, 0x42), (7, 0x43)]) 0x5270).pc = 0x202 := by decide
theorem test_sneReg : (run (withRegs [(2, 0x42), (7, 0x43)]) 0x9270).pc = 0x204 ∧
    (run State.reset 0x9550).pc = 0x202 := by decide

/-! Arithmetic and logic (part 1 S1, S2, S10 and part 2) -/

theorem test_ldImm : (run State.reset 0x60EA).v[0] = 0xEA := by decide
theorem test_addImm_wraps_without_flag : (run (withRegs [(1, 0xFF), (15, 0x55)]) 0x7101).v[1] = 0 ∧
    (run (withRegs [(1, 0xFF), (15, 0x55)]) 0x7101).v[15] = 0x55 := by decide
theorem test_ldReg : (run (withRegs [(2, 0x33)]) 0x8120).v[1] = 0x33 := by decide
theorem test_or_keeps_vf : (run (withRegs [(1, 0xF0), (2, 0x0F), (15, 0x55)]) 0x8121).v[1] = 0xFF ∧
    (run (withRegs [(1, 0xF0), (2, 0x0F), (15, 0x55)]) 0x8121).v[15] = 0x55 := by decide
theorem test_and : (run (withRegs [(1, 0xF0), (2, 0x3C)]) 0x8122).v[1] = 0x30 := by decide
theorem test_xor : (run (withRegs [(1, 0xF0), (2, 0x3C)]) 0x8123).v[1] = 0xCC := by decide
theorem test_add_carries : (run (withRegs [(0, 0xFE), (1, 0x1E)]) 0x8014).v[0] = 0x1C ∧
    (run (withRegs [(0, 0xFE), (1, 0x1E)]) 0x8014).v[15] = 1 := by decide
theorem test_add_flag_overwrites_result : (run (withRegs [(15, 0x80), (1, 0x80)]) 0x8F14).v[15] = 1 := by decide
theorem test_sub : (run (withRegs [(0, 25), (1, 10)]) 0x8015).v[0] = 15 ∧
    (run (withRegs [(0, 25), (1, 10)]) 0x8015).v[15] = 1 := by decide
theorem test_sub_borrows : (run (withRegs [(0, 10), (1, 25)]) 0x8015).v[0] = 241 ∧
    (run (withRegs [(0, 10), (1, 25)]) 0x8015).v[15] = 0 := by decide
theorem test_subn : (run (withRegs [(1, 10), (2, 25)]) 0x8127).v[1] = 15 ∧
    (run (withRegs [(1, 10), (2, 25)]) 0x8127).v[15] = 1 := by decide
theorem test_subn_borrows : (run (withRegs [(1, 25), (2, 10)]) 0x8127).v[1] = 241 ∧
    (run (withRegs [(1, 25), (2, 10)]) 0x8127).v[15] = 0 := by decide
theorem test_shr : (run (withRegs [(1, 5), (2, 12)]) 0x8126).v[1] = 2 ∧
    (run (withRegs [(1, 5), (2, 12)]) 0x8126).v[15] = 1 := by decide
theorem test_shr_quirk : (run { withRegs [(1, 5), (2, 12)] with quirk := true } 0x8126).v[1] = 6 ∧
    (run { withRegs [(1, 5), (2, 12)] with quirk := true } 0x8126).v[15] = 0 := by decide
theorem test_shl : (run (withRegs [(1, 0x81), (2, 0x40)]) 0x812E).v[1] = 2 ∧
    (run (withRegs [(1, 0x81), (2, 0x40)]) 0x812E).v[15] = 1 := by decide
theorem test_shl_quirk : (run { withRegs [(1, 0x81), (2, 0x40)] with quirk := true } 0x812E).v[1] = 0x80 ∧
    (run { withRegs [(1, 0x81), (2, 0x40)] with quirk := true } 0x812E).v[15] = 0 := by decide
theorem test_rnd : (run State.reset 0xC30F (rnd := 0xB7)).v[3] = 0x07 := by decide

/-! Index and memory (part 1 S5 and part 2) -/

theorem test_ldI : (run State.reset 0xA300).i = 0x300 := by decide
theorem test_addI : (run { withRegs [(2, 5), (15, 7)] with i := 0xFFE } 0xF21E).i = 0x1003 ∧
    (run { withRegs [(2, 5), (15, 7)] with i := 0xFFE } 0xF21E).v[15] = 7 := by decide
theorem test_addI_overflow :
    (run { withRegs [(0, 0x0F)] with i := 0xFFF0 } 0xF01E).i = 0xFFFF ∧
    (run { withRegs [(0, 0x10)] with i := 0xFFF0 } 0xF01E).faultCause = .indexOverflow := by decide
theorem test_ldFont : (run (withRegs [(0, 0x0A)]) 0xF029).i = 0x082 ∧ (run (withRegs [(0, 0xFF)]) 0xF029).i = 0x54B := by
  decide
theorem test_ldBcd : bytesAt (run { withRegs [(0, 234)] with i := 0x300 } 0xF033) 0x300 3 = [2, 3, 4] := by decide
theorem test_ldBcd_boundary :
    bytesAt (run { withRegs [(0, 123)] with i := 0xFFD } 0xF033) 0xFFD 3 = [1, 2, 3] ∧
    (run { withRegs [(0, 1)] with i := 0xFFE } 0xF033).faultCause = .addressFault ∧
    (run { withRegs [(0, 1)] with i := 0xFFE } 0xF033).byteAt 0xFFF = 0 := by decide
theorem test_storeRegs :
    bytesAt (run { withRegs [(0, 0x11), (1, 0x22), (2, 0x33)] with i := 0x400 } 0xF155) 0x400 3 = [0x11, 0x22, 0] ∧
    (run { withRegs [(0, 0x11), (1, 0x22), (2, 0x33)] with i := 0x400 } 0xF155).i = 0x400 := by decide
theorem test_storeRegs_fault : (run { withRegs [(0, 1)] with i := 0xFF1 } 0xFF55).faultCause = .addressFault ∧
    (run { withRegs [(0, 1)] with i := 0xFF1 } 0xFF55).byteAt 0xFF1 = 0 := by decide
theorem test_loadRegs : (run (poke { State.reset with i := 0x300 } 0x300 [2, 3, 4, 5]) 0xF265).v.toList.take 4 =
    [2, 3, 4, 0] := by decide
theorem test_loadRegs_fault : (run { withRegs [(0, 9)] with i := 0xFFF } 0xF165).faultCause = .addressFault ∧
    (run { withRegs [(0, 9)] with i := 0xFFF } 0xF165).v[0] = 9 := by decide

/-! Display (part 1 S3, S4, S7 and part 2) -/

theorem test_cls : row (run { State.reset with display := Display.blank.flip 5 6 } 0x00E0) 6 = [] := by decide
theorem test_drw_wraps_per_pixel :
    row (run (poke { withRegs [(1, 62), (15, 9)] with i := 0x300 } 0x300 [0xFF]) 0xD121) 0 =
      [0, 1, 2, 3, 4, 5, 62, 63] ∧
    (run (poke { withRegs [(1, 62), (15, 9)] with i := 0x300 } 0x300 [0xFF]) 0xD121).v[15] = 0 := by decide
theorem test_drw_collides :
    row (run { poke (withRegs [(15, 3)]) 0x300 [0x80] with i := 0x300, display := Display.blank.flip 3 0 } 0xDF11) 0 = [] ∧
    (run { poke (withRegs [(15, 3)]) 0x300 [0x80] with i := 0x300, display := Display.blank.flip 3 0 } 0xDF11).v[15] = 1 := by
  decide

/-! Keypad and timers (part 1 S9 and part 2) -/

theorem test_skp : (run (withRegs [(4, 7)]) 0xE49E 0x200 [7]).pc = 0x204 ∧
    (run (withRegs [(4, 7)]) 0xE49E 0x200 []).pc = 0x202 := by decide
theorem test_skp_key_16 : (run (withRegs [(4, 16)]) 0xE49E).faultCause = .keyIndexFault := by decide
theorem test_sknp : (run (withRegs [(4, 7)]) 0xE4A1 0x200 [7]).pc = 0x202 ∧
    (run (withRegs [(4, 7)]) 0xE4A1 0x200 []).pc = 0x204 := by decide
theorem test_ldKey_lowest : (run State.reset 0xF20A 0x206 [7, 9]).v[2] = 7 ∧
    (run State.reset 0xF20A 0x206 [7, 9]).pc = 0x208 := by decide
theorem test_ldKey_waits : (run { State.reset with dt := 3 } 0xF20A 0x206).pc = 0x206 ∧
    (run { State.reset with dt := 3 } 0xF20A 0x206).dt = 2 := by decide
theorem test_ldVxDt : (run { State.reset with dt := 4 } 0xF107).v[1] = 4 ∧
    (run { State.reset with dt := 4 } 0xF107).dt = 3 := by decide
theorem test_ldDtVx : (run (withRegs [(0, 5)]) 0xF015).dt = 4 ∧ (run (withRegs [(0, 0)]) 0xF015).dt = 0 := by decide
theorem test_ldStVx : (run (withRegs [(3, 0x10)]) 0xF318).st = 0x0F := by decide

/-! The cycle and the host's operations (part 2) -/

theorem test_unknown_signals :
    (run { State.reset with dt := 3, st := 1 } 0x0123).out = ⟨some 0x0123, none⟩ ∧
    (run { State.reset with dt := 3, st := 1 } 0x0123).pc = 0x202 ∧
    (run { State.reset with dt := 3, st := 1 } 0x0123).opcode = 0x0123 ∧
    (run { State.reset with dt := 3, st := 1 } 0x0123).dt = 2 ∧
    (run { State.reset with dt := 3, st := 1 } 0x0123).st = 0 := by decide
theorem test_fetch_at_the_end :
    (run State.reset 0x00E0 0xFFE).pc = 0x1000 ∧ (run State.reset 0x00E0 0xFFE).halted = false ∧
    (run State.reset 0x00E0 0xFFF).faultCause = .addressFault ∧ (run State.reset 0x00E0 0xFFF).faultWord = none := by
  decide
theorem test_fetch_at_an_odd_address : (run State.reset 0x60AB 0x201).v[0] = 0xAB ∧
    (run State.reset 0x60AB 0x201).pc = 0x203 := by decide
theorem test_halted_cycle_changes_nothing :
    (run { State.reset with halted := true, faultCause := .stackOverflow, dt := 3 } 0x6001).v[0] = 0 ∧
    (run { State.reset with halted := true, faultCause := .stackOverflow, dt := 3 } 0x6001).dt = 3 := by decide
theorem test_keys_are_latched : (run State.reset 0x00E0 0x200 [3]).keypad = keysOf [3] := by decide
theorem test_reset_keeps_quirk :
    (match step { State.reset with quirk := true, pc := 0x300, halted := true, pending := [.reset] } with
      | .next t => (t.quirk, t.pc, t.halted)
      | .fault _ => (false, 0, true)
      | .refused _ => (false, 0, true)) = (true, 0x200, false) := by decide
theorem test_load :
    (match step { State.reset with pending := [.load (.image [0x12, 0x0C])] } with
      | .next t => bytesAt t 0x1FF 4
      | .fault _ => []
      | .refused _ => []) = [0, 0x12, 0x0C, 0] := by decide
/-- `withFetchWord` on the state after reset: the next step runs 8014 with the registers at zero. -/
theorem test_withFetchWord :
    (match step (State.reset.withFetchWord 16 0x8014) with
      | .next t => (t.pc, t.opcode, t.v[15], t.halted)
      | .fault _ => (0, 0, 0, true)
      | .refused _ => (0, 0, 0, true)) = (0x202, 0x8014, 0, false) := by decide
/-- The queued cycle's random byte is drawn: the counter has moved on, so a second draw is another one (R133). -/
theorem test_withFetchWord_draws : (State.reset.withFetchWord 16 0xC3FF).draws = 1 := by decide

/-! ### Witnesses: concrete values that meet the hypotheses of each obligation, clause by clause -/

/-- Encoding: the hypotheses `decode w = ...` and `w AND mask = match`, at field values 0 and F. -/
theorem witness_EncodeOfDecode : decode 0x8F06 = .instr (.shr 15 0) ∧ decode 0x80F6 = .instr (.shr 0 15) := by decide

theorem witness_DecoderFollowsTheOpcodeMap :
    ([0x00E0, 0x00EE, 0x1000, 0x2FFF, 0x30FF, 0x4F00, 0x5F00, 0x60FF, 0x7F00, 0x80F0, 0x8F01, 0x80F2] ++
      [0x8F03, 0x80F4, 0x8F05, 0x80F6, 0x8F07, 0x80FE, 0x9F00, 0xA000, 0xBFFF, 0xC0FF, 0xDFFF, 0xE09E] ++
      [0xEFA1, 0xF007, 0xFF0A, 0xF015, 0xFF18, 0xF01E, 0xFF29, 0xF033, 0xFF55, 0xF065] : List Word).zip opcodeMap
      |>.all (fun p => p.1 &&& p.2.2 == p.2.1) := by decide

theorem witness_DecoderFollowsTheOpcodeMap_unknown : ∀ row ∈ opcodeMap, (0x8128 : Word) &&& row.2 ≠ row.1 := by
  have h : opcodeMap.all (fun row => (0x8128 : Word) &&& row.2 != row.1) = true := by decide
  simpa using h

theorem witness_OpcodeRowsAreDisjoint :
    opcodeTable[19] ∈ opcodeTable ∧ opcodeTable[19].pattern = "8XY6" ∧ opcodeTable[19].selects 0x8126 = true :=
  ⟨List.getElem_mem _, by decide, by decide⟩

theorem witness_UnknownSpaceIsExactlyTheListedOne :
    (∀ w ∈ ([0x0000, 0x00E1, 0x0FFF, 0x5001, 0x8008, 0x800F, 0x900F, 0xE09F, 0xF0FF] : List Word),
      decode w = .unknown w ∧ inUnknownSpace w) ∧
    ∀ w ∈ ([0x00E0, 0x00EE, 0x5000, 0x800E, 0x9000, 0xE0A1, 0xF065] : List Word), ¬ inUnknownSpace w := by
  simp only [List.forall_mem_cons]
  unfold inUnknownSpace
  refine ⟨⟨?_, ?_, ?_, ?_, ?_, ?_, ?_, ?_, ?_, by simp⟩, ?_, ?_, ?_, ?_, ?_, ?_, ?_, by simp⟩ <;> decide

/-- A cycle stands in the script. -/
theorem hostCycle_prepared (s : State) (w : Word) (a : Word) (ks : List (Fin 16)) (rnd : Byte) :
    (prepared s w a ks rnd).HostCycle (keysOf ks) rnd { prepared s w a ks rnd with pending := [] } := .inl ⟨rfl, rfl⟩

/-- The script is empty. -/
theorem hostCycle_reset :
    State.reset.HostCycle (Config.freeKeys 0) (Config.freeByte 0) { State.reset with draws := 1 } :=
  .inr ⟨rfl, rfl, rfl, rfl⟩

/-- The same two states serve the obligations on the script: each has a next state. -/
theorem witness_StepPerformsTheNextHostOperation :
    ({ State.reset with pending := [.read] } : State).pending = [.read] ∧ State.reset.pending = [] ∧
    (∃ t, step { State.reset with pending := [.read] } = .next t) ∧
    ∃ t, step { poke State.reset 0x200 [0x60, 0x01] with draws := 7 } = .next t := ⟨rfl, rfl, ⟨_, rfl⟩, _, rfl⟩

/-- At the last address a fetch succeeds at, and with the script empty (memory reads 00 00 at 0x200). -/
theorem witness_StepRunsTheDecodedInstruction :
    (∃ s' u, (prepared State.reset 0x6001 0xFFE).HostCycle (keysOf []) 0 s' ∧
      (prepared State.reset 0x6001 0xFFE).halted = false ∧ (prepared State.reset 0x6001 0xFFE).pc.toNat ≤ 0x0FFE ∧
      decode (prepared State.reset 0x6001 0xFFE).wordAtPc = .instr (.ldImm 0 1) ∧
      exec (.ldImm 0 1) (s'.atExecute (keysOf []) 0) = .next u) ∧
    ∃ s' u, (poke State.reset 0x200 [0x60, 0x01]).HostCycle (Config.freeKeys 0) (Config.freeByte 0) s' ∧
      decode (poke State.reset 0x200 [0x60, 0x01]).wordAtPc = .instr (.ldImm 0 1) ∧
      exec (.ldImm 0 1) (s'.atExecute (Config.freeKeys 0) (Config.freeByte 0)) = .next u :=
  ⟨⟨_, _, hostCycle_prepared .., by decide, by decide, by decide, rfl⟩,
    _, _, .inr ⟨rfl, rfl, rfl, rfl⟩, by decide, rfl⟩

theorem witness_FetchFaultsOrAdvances :
    (∃ s', (prepared State.reset 0x00E0 0xFFF).HostCycle (keysOf []) 0 s') ∧
    (prepared State.reset 0x00E0 0xFFF).halted = false ∧ 0x0FFF ≤ (prepared State.reset 0x00E0 0xFFF).pc.toNat ∧
    (prepared State.reset 0x00E0 0xFFE).pc.toNat < 0x0FFF :=
  ⟨⟨_, hostCycle_prepared ..⟩, by decide, by decide, by decide⟩

/-- A cycle that completes, with both timers above 0 and at 0. -/
theorem witness_TimersCountCompletedCycles :
    (∃ s', (prepared { State.reset with dt := 3 } 0x6001 0x200 [3]).HostCycle (keysOf [3]) 0 s') ∧
    (prepared { State.reset with dt := 3 } 0x6001 0x200 [3]).halted = false ∧
    ∃ t, step (prepared { State.reset with dt := 3 } 0x6001 0x200 [3]) = .next t ∧ t.halted = false :=
  ⟨⟨_, hostCycle_prepared ..⟩, by decide, _, rfl, by decide⟩

/-- The same state and cycle serve the obligation on the keys. -/
theorem witness_CycleLatchesTheKeys :
    (∃ s', (prepared State.reset 0x6001 0x200 [0, 15]).HostCycle (keysOf [0, 15]) 0 s') ∧
    ∃ t, step (prepared State.reset 0x6001 0x200 [0, 15]) = .next t ∧ t.halted = false :=
  ⟨⟨_, hostCycle_prepared ..⟩, _, rfl, by decide⟩

/-- A halted core: a cycle, and the reset that leaves the halted state. -/
theorem witness_HaltedCoreIgnoresCycles :
    (∃ s' t, (prepared { State.reset with halted := true } 0x6001).HostCycle (keysOf []) 0 s' ∧
      (prepared { State.reset with halted := true } 0x6001).halted = true ∧
      step (prepared { State.reset with halted := true } 0x6001) = .next t) ∧
    ∃ t, step { State.reset with halted := true, pending := [.reset] } = .next t ∧ t.halted = false :=
  ⟨⟨_, _, hostCycle_prepared .., by decide, rfl⟩, _, rfl, by decide⟩

theorem witness_UnknownWordIsSignalledAndSkipped :
    (∃ s', (prepared State.reset 0x8128 0xFFE).HostCycle (keysOf []) 0 s') ∧
    (prepared State.reset 0x8128 0xFFE).halted = false ∧ (prepared State.reset 0x8128 0xFFE).pc.toNat ≤ 0x0FFE ∧
    decode (prepared State.reset 0x8128 0xFFE).wordAtPc = .unknown (prepared State.reset 0x8128 0xFFE).wordAtPc :=
  ⟨⟨_, hostCycle_prepared ..⟩, by decide, by decide, by decide⟩

theorem witness_SetQuirkWritesQuirkOnlyAndReadNothing :
    ({ State.reset with pending := [.setQuirk true] } : State).pending = [.setQuirk true] ∧
    ({ State.reset with pending := [.read] } : State).pending = [.read] := ⟨rfl, rfl⟩

/-- The longest image that fits, the shortest that does not, and a binary that cannot be read. -/
theorem witness_LoadWritesTheImageOrNothing :
    (∃ (image : List Byte) (s : State), s.pending = [.load (.image image)] ∧ image.length = 3584 ∧ Memory.wf s.font s.mem = true) ∧
    (∃ (image : List Byte) (s : State), s.pending = [.load (.image image)] ∧ image.length = 3585) ∧
    ∃ s : State, s.pending = [.load .unreadable] :=
  ⟨⟨List.replicate 3584 1, { State.reset with pending := [.load (.image (List.replicate 3584 1))] }, rfl,
      List.length_replicate, rfl⟩,
    ⟨List.replicate 3585 1, { State.reset with pending := [.load (.image (List.replicate 3585 1))] }, rfl,
      List.length_replicate⟩,
    { State.reset with pending := [.load .unreadable] }, rfl⟩

theorem witness_ResetGivesTheResetValues :
    ({ withRegs [(0, 1)] with pending := [.reset] } : State).pending = [.reset] := rfl

theorem witness_BootFetchesTheFirstWordOfTheImage : (List.replicate 3582 (1 : Byte)).length ≤ 3582 := by
  rw [List.length_replicate]

/-- A state while a cycle that started in it runs. -/
def inside (s : State) : State := { s with inCycle := some ⟨s.toArch, 0xB7⟩ }

/-- The premise `inCycle = some c` of the statements on faults and on CXNN. -/
theorem witness_inCycle (s : State) : (inside s).inCycle = some ⟨s.toArch, 0xB7⟩ := rfl

/-- R302: each fault condition, at its boundary, holds in a state and fails in the next; a cycle runs in each of them
(`witness_inCycle`). -/
theorem witness_FaultsHaveTheListedConditions :
    faultOf .ret (inside { State.reset with sp := 0 }) = .stackUnderflow ∧ faultOf .ret (inside { State.reset with sp := 1 }) = .noFault ∧
    faultOf (.call 0) (inside { State.reset with sp := 16 }) = .stackOverflow ∧
    faultOf (.call 0) (inside { State.reset with sp := 15 }) = .noFault ∧
    faultOf (.skp 4) (inside (withRegs [(4, 16)])) = .keyIndexFault ∧ faultOf (.sknp 4) (inside (withRegs [(4, 15)])) = .noFault ∧
    faultOf (.addI 0) (inside { withRegs [(0, 1)] with i := 0xFFFF }) = .indexOverflow ∧
    faultOf (.addI 0) (inside { withRegs [(0, 1)] with i := 0xFFFE }) = .noFault ∧
    faultOf (.drw 0 0 1) (inside { State.reset with i := 0x1000 }) = .addressFault ∧
    faultOf (.drw 0 0 1) (inside { State.reset with i := 0xFFF }) = .noFault ∧
    faultOf (.drw 0 0 0) (inside { State.reset with i := 0xFFFF }) = .noFault ∧
    faultOf (.ldBcd 0) (inside { State.reset with i := 0xFFE }) = .addressFault ∧
    faultOf (.ldBcd 0) (inside { State.reset with i := 0xFFD }) = .noFault ∧
    faultOf (.storeRegs 15) (inside { State.reset with i := 0xFF1 }) = .addressFault ∧
    faultOf (.storeRegs 15) (inside { State.reset with i := 0xFF0 }) = .noFault ∧
    faultOf (.loadRegs 0) (inside { State.reset with i := 0x1000 }) = .addressFault ∧
    faultOf (.loadRegs 0) (inside { State.reset with i := 0xFFF }) = .noFault := by decide

/-- A cycle that ends in a fault of the instruction, and one that ends in a fetch fault. -/
theorem witness_FaultRollsTheCycleBack :
    (∃ s' t, (prepared State.reset 0x00EE).HostCycle (keysOf []) 0 s' ∧ (prepared State.reset 0x00EE).halted = false ∧
      step (prepared State.reset 0x00EE) = .next t ∧ t.halted = true) ∧
    ∃ s' t, (prepared State.reset 0x00EE 0xFFF).HostCycle (keysOf []) 0 s' ∧
      step (prepared State.reset 0x00EE 0xFFF) = .next t ∧ t.halted = true :=
  ⟨⟨_, _, hostCycle_prepared .., by decide, rfl, by decide⟩, _, _, hostCycle_prepared .., rfl, by decide⟩

theorem stack_of_reset : ∀ k : Fin 16, State.reset.stack[k].toNat ≤ 0x1000 := by decide

/-- The reset state meets the invariant; so does a state whose PC is the last address a fetch succeeds at. -/
theorem inv_of_reset (pc : Word) (h : pc.toNat ≤ 0x10FE) : ({ State.reset with pc := pc } : State).Inv where
  idle := rfl
  memory := rfl
  range := ⟨h, stack_of_reset⟩
  record := ⟨fun _ => ⟨rfl, rfl, rfl⟩, fun h => by cases h⟩

theorem witness_StepKeepsTheInvariant :
    ({ State.reset with pc := 0x10FE } : State).Inv ∧ ∃ t, step { State.reset with pc := 0x10FE } = .next t :=
  ⟨inv_of_reset _ (by decide), _, rfl⟩

theorem witness_FetchAdvanceNeverWraps :
    ({ State.reset with pc := 0xFFE } : State).Inv ∧ ({ State.reset with pc := 0xFFE } : State).fetchWord = some 0 :=
  ⟨inv_of_reset _ (by decide), by decide⟩

/-- An instruction that has not faulted, with the element of each clause changed by it. -/
theorem witness_OnlyListedInstructionsWriteEachElement :
    (∃ t, exec (.ldImm 3 1) State.reset = .next t ∧ t.halted = false ∧ t.v[3] ≠ State.reset.v[3]) ∧
    (∃ t, exec (.ldI 1) State.reset = .next t ∧ t.i ≠ State.reset.i) ∧
    (∃ t, exec (.call 1) State.reset = .next t ∧ t.pc ≠ State.reset.pc ∧ t.sp ≠ State.reset.sp ∧
      t.stack ≠ State.reset.stack) ∧
    (∃ t, exec (.ldDtVx 0) (withRegs [(0, 1)]) = .next t ∧ t.dt ≠ (withRegs [(0, 1)]).dt) ∧
    (∃ t, exec (.ldStVx 0) (withRegs [(0, 1)]) = .next t ∧ t.st ≠ (withRegs [(0, 1)]).st) ∧
    (∃ t, exec (.drw 0 1 5) { State.reset with i := 0x050 } = .next t ∧ t.display ≠ State.reset.display) ∧
    ∃ t, exec (.storeRegs 0) (withRegs [(0, 1)]) = .next t ∧ t.mem ≠ (withRegs [(0, 1)]).mem :=
  ⟨⟨_, rfl, by decide, by decide⟩, ⟨_, rfl, by decide⟩, ⟨_, rfl, by decide, by decide, by decide⟩,
    ⟨_, rfl, by decide⟩, ⟨_, rfl, by decide⟩, ⟨_, rfl, by decide⟩, _, rfl, by decide⟩

theorem witness_OpcodeRegisterDoesNotAffectExecution :
    (∃ t, step (prepared State.reset 0x6001) = .next t) ∧
    ∃ t', step { prepared State.reset 0x6001 with opcode := 0x8014 } = .next t' := ⟨⟨_, rfl⟩, _, rfl⟩

theorem witness_OnlyRandomInstructionReadsTheRandomByte :
    ∀ x nn, decode (prepared State.reset 0x00E0).wordAtPc ≠ .instr (.rnd x nn) := by
  intro x nn h
  rw [show decode (prepared State.reset 0x00E0).wordAtPc = .instr .cls by decide] at h
  cases h

/-- A shift with X = Y and an instruction that is no shift. -/
theorem witness_QuirkChangesTheShiftsOnly :
    (∀ x y : Reg, x ≠ y → Instr.shr 1 1 ≠ .shr x y ∧ Instr.shr 1 1 ≠ .shl x y) ∧
    (∃ t t', exec (.shr 1 1) State.reset = .next t ∧ exec (.shr 1 1) { State.reset with quirk := true } = .next t') ∧
    ∃ t t', exec (.addReg 1 2) State.reset = .next t ∧ exec (.addReg 1 2) { State.reset with quirk := true } = .next t' :=
  ⟨fun x y h => ⟨fun he => by cases he; exact h rfl, fun he => by cases he⟩, ⟨_, _, rfl, rfl⟩, _, _, rfl, rfl⟩

theorem witness_MemoryReadsTheMostRecentWrite :
    Memory.wf State.reset.font State.reset.mem = true ∧ (∃ t, State.reset.memWrite 0xFFF 7 = some t) ∧
    ∃ t, State.reset.memWrite 0x050 0xF0 = some t := ⟨rfl, ⟨_, rfl⟩, _, rfl⟩

/-- The stack at both ends: the calls and returns that complete, and those that fault, in a running cycle. -/
theorem witness_stack_clauses :
    ({ State.reset with sp := 1 } : State).sp.val = (0 : Fin 16).val + 1 ∧
    ({ State.reset with sp := 16 } : State).sp.val = (15 : Fin 16).val + 1 ∧ (inside State.reset).sp = 0 ∧
    State.reset.sp.val = (0 : Fin 16).val ∧ ({ State.reset with sp := 15 } : State).sp.val = (15 : Fin 16).val ∧
    (inside { State.reset with sp := 16 }).sp.val = 16 ∧ ({ State.reset with sp := 15 } : State).sp.val < 16 := by decide

/-- The words of the decode clauses of the instruction statements: a first nibble, and a last nibble or byte. -/
theorem witness_decode_clauses :
    (0x1FFF : Word).extractLsb' 12 4 = 0x1#4 ∧ (0xB000 : Word).extractLsb' 12 4 = 0xB#4 ∧
    (0x2FFF : Word).extractLsb' 12 4 = 0x2#4 ∧ (0x30FF : Word).extractLsb' 12 4 = 0x3#4 ∧
    (0x4F00 : Word).extractLsb' 12 4 = 0x4#4 ∧ (0x5F0F : Word).extractLsb' 12 4 = 0x5#4 ∧
    (0x90F0 : Word).extractLsb' 12 4 = 0x9#4 ∧ (0x6F00 : Word).extractLsb' 12 4 = 0x6#4 ∧
    (0x7F00 : Word).extractLsb' 12 4 = 0x7#4 ∧ (0x8F0E : Word).extractLsb' 12 4 = 0x8#4 ∧
    (0x8F0E : Word).extractLsb' 0 4 = 0xE#4 ∧ (0xA000 : Word).extractLsb' 12 4 = 0xA#4 ∧
    (0xC0FF : Word).extractLsb' 12 4 = 0xC#4 ∧ (0xDF01 : Word).extractLsb' 12 4 = 0xD#4 ∧
    (0xEF9E : Word).extractLsb' 12 4 = 0xE#4 ∧ (0xEF9E : Word).extractLsb' 0 8 = 0x9E#8 ∧
    (0xF00A : Word).extractLsb' 12 4 = 0xF#4 ∧ (0xF00A : Word).extractLsb' 0 8 = 0x0A#8 := by decide

/-- The last nibble that selects each of the 8XYs rows, and the last byte that selects each of the FXs and EXs rows. -/
theorem witness_selector_clauses :
    ([0x80F0, 0x80F1, 0x80F2, 0x80F3, 0x80F4, 0x80F5, 0x80F6, 0x80F7, 0x80FE] : List Word).map
      (fun w => w.extractLsb' 0 4) = [0x0#4, 0x1#4, 0x2#4, 0x3#4, 0x4#4, 0x5#4, 0x6#4, 0x7#4, 0xE#4] ∧
    ([0xE09E, 0xE0A1, 0xF007, 0xF00A, 0xF015, 0xF018, 0xF01E, 0xF029, 0xF033, 0xF055, 0xF065] : List Word).map
      (fun w => w.extractLsb' 0 8) =
      [0x9E#8, 0xA1#8, 0x07#8, 0x0A#8, 0x15#8, 0x18#8, 0x1E#8, 0x29#8, 0x33#8, 0x55#8, 0x65#8] := by decide

/-- The index sum on both sides of 0xFFFF. -/
theorem witness_AddToIndexOrOverflow :
    (∃ s : State, s = { withRegs [(0, 0x0F)] with i := 0xFFF0 } ∧ s.i.toNat + s.v[0].toNat ≤ 0xFFFF) ∧
    ∃ s : State, s = inside { withRegs [(0, 0x10)] with i := 0xFFF0 } ∧ 0xFFFF < s.i.toNat + s.v[0].toNat :=
  ⟨⟨_, rfl, by decide⟩, _, rfl, by decide⟩

/-- The last address of a store, a load or a sprite on both sides of 0xFFF, and the empty sprite; memory is canonical. -/
theorem witness_address_clauses :
    Memory.wf State.reset.font ({ State.reset with i := 0xFF0 } : State).mem = true ∧
    ({ State.reset with i := 0xFFD } : State).i.toNat + 2 < 0x1000 ∧
    0x1000 ≤ (inside { State.reset with i := 0xFFE }).i.toNat + 2 ∧
    ({ State.reset with i := 0xFF0 } : State).i.toNat + (15 : Reg).val < 0x1000 ∧
    0x1000 ≤ (inside { State.reset with i := 0xFF1 }).i.toNat + (15 : Reg).val ∧
    ({ State.reset with i := 0xFFF } : State).i.toNat + (1 : Fin 16).val - 1 < 0x1000 ∧ (0 : Fin 16).val = 0 ∧
    1 ≤ (1 : Fin 16).val ∧ 0x1000 ≤ (inside { State.reset with i := 0x1000 }).i.toNat + (1 : Fin 16).val - 1 := by decide

theorem witness_StoredRegistersAreFetched :
    Memory.wf State.reset.font State.reset.mem = true ∧
    ({ State.reset with i := 0xFF0 } : State).i.toNat + (15 : Reg).val < 0x1000 ∧ (14 : Fin 15).val + 1 ≤ (15 : Reg).val ∧
    (0xFFE : Word).toNat = ({ State.reset with i := 0xFF0 } : State).i.toNat + (14 : Fin 15).val ∧
    ∃ t, exec (.storeRegs 15) { State.reset with i := 0xFF0 } = .next t :=
  ⟨rfl, by decide, by decide, by decide, _, rfl⟩

/-- A pixel under the sprite that is on, one that is off, and a pixel beside it. -/
theorem witness_DrawInvertsThePixelsUnderTheSprite :
    ({ State.reset with i := 0x050 } : State).SpriteCovers 0 1 1 0 0 ∧
    ¬ ({ State.reset with i := 0x050 } : State).SpriteCovers 0 1 1 8 0 ∧
    ({ State.reset with i := 0x050, display := Display.blank.flip 0 0 } : State).display[0][0] = true ∧
    ∀ (px : Fin 64) (py : Fin 32), State.reset.display[py][px] = false := by
  refine ⟨⟨0, 0, by decide⟩, ?_, by decide, by decide⟩
  rintro ⟨row, col, hr, hc, -, hx, -⟩
  have : (0 : Fin 64).val + 8 = col % 64 := by simpa [State.reset, State.powerOn, Arch.afterReset] using hx
  simp at this
  omega

theorem witness_DrawingTwiceRestoresTheDisplay :
    (0 : Reg) ≠ 15 ∧ (14 : Reg) ≠ 15 ∧ ({ State.reset with i := 0xFFF } : State).i.toNat + (1 : Fin 16).val - 1 < 0x1000 := by
  decide

/-- Key numbers 15 and 16; the lowest of two pressed keys; no key pressed. -/
theorem witness_key_clauses :
    (withRegs [(4, 15)]).v[4].toNat = (15 : Fin 16).val ∧ 15 < (inside (withRegs [(4, 16)])).v[4].toNat ∧
    (keysOf [9, 15])[9] = true ∧ (∀ j : Fin 16, j < 9 → (keysOf [9, 15])[j] = false) ∧
    ∀ k : Fin 16, (keysOf [])[k] = false := by decide

/-- The clause of FX0A on a whole waiting cycle. -/
theorem witness_KeyWaitTakesTheLowestKeyOrRewinds :
    (∃ s', (prepared State.reset 0xF20A 0xFFE).HostCycle (keysOf []) 0 s') ∧
    (prepared State.reset 0xF20A 0xFFE).halted = false ∧ (prepared State.reset 0xF20A 0xFFE).pc.toNat ≤ 0x0FFE ∧
    decode (prepared State.reset 0xF20A 0xFFE).wordAtPc = .instr (.ldKey 2) ∧ ∀ k : Fin 16, (keysOf [])[k] = false :=
  ⟨⟨_, hostCycle_prepared ..⟩, by decide, by decide, by decide, by decide⟩

theorem witness_TimerWriteIsDecrementedInItsOwnCycle :
    (∃ s', (prepared (withRegs [(0, 5)]) 0xF015).HostCycle (keysOf []) 0 s') ∧
    (prepared (withRegs [(0, 5)]) 0xF015).halted = false ∧ (prepared (withRegs [(0, 5)]) 0xF015).pc.toNat ≤ 0x0FFE ∧
    (∃ t, step (prepared (withRegs [(0, 5)]) 0xF015) = .next t) ∧
    decode (prepared (withRegs [(0, 5)]) 0xF015).wordAtPc = .instr (.ldDtVx 0) ∧
    decode (prepared (withRegs [(0, 5)]) 0xF018).wordAtPc = .instr (.ldStVx 0) ∧
    decode (prepared (withRegs [(0, 5)]) 0xF007).wordAtPc = .instr (.ldVxDt 0) :=
  ⟨⟨_, hostCycle_prepared ..⟩, by decide, by decide, ⟨_, rfl⟩, by decide, by decide, by decide⟩

end Sys2Proof.Tests
end

section
/-! QUIRK reaches an instruction through the shift source alone, and with X = Y the shift source does not depend on it
(spec/42_alu.md R190). So any other instruction, run from two states that differ in QUIRK alone, ends in two states that
differ in QUIRK at most: at most, because a fatal fault in a running cycle brings S0 back, and QUIRK with it. -/

namespace Sys2Proof.Machine

/-- The machine with QUIRK set, and nothing else changed. -/
def State.withQuirk (s : State) (q : Bool) : State := { s with quirk := q }

/-- Two outcomes with next states have the same next state but for QUIRK. -/
def AgreeButQuirk (r r' : Result) : Prop :=
  ∀ t t', r = .next t → r' = .next t' → t' = { t with quirk := t'.quirk }

variable {s : State} {q : Bool}

/-! ### What the shared operations read and do where QUIRK is set -/

@[simp] theorem State.withQuirk_pc : (s.withQuirk q).pc = s.pc := rfl
@[simp] theorem State.withQuirk_keypad : (s.withQuirk q).keypad = s.keypad := rfl
@[simp] theorem reg_withQuirk (r : Reg) : (s.withQuirk q).reg r = s.reg r := rfl
@[simp] theorem regsUpTo_withQuirk (x : Reg) : (s.withQuirk q).regsUpTo x = s.regsUpTo x := rfl
@[simp] theorem base_withQuirk : (s.withQuirk q).base = s.base := rfl
@[simp] theorem key_withQuirk (x : Byte) : (s.withQuirk q).key x = s.key x := rfl

@[simp] theorem memReads_withQuirk (a n : Nat) : (s.withQuirk q).memReads a n = s.memReads a n := by
  rw [memReads_eq, memReads_eq]
  rfl

@[simp] theorem memWrites_withQuirk (a : Nat) (bs : List Byte) :
    (s.withQuirk q).memWrites a bs = (s.memWrites a bs).map (·.withQuirk q) := by
  rw [memWrites_eq, memWrites_eq]
  split <;> rfl

@[simp] theorem setRegs_withQuirk (k : Nat) (bs : List Byte) :
    (s.withQuirk q).setRegs k bs = (s.setRegs k bs).withQuirk q := by
  induction bs generalizing s k with
  | nil => rfl
  | cons b bs ih =>
    rw [State.setRegs, State.setRegs, ← ih]
    split <;> rfl

@[simp] theorem skipIf_withQuirk (c : Bool) : (s.withQuirk q).skipIf c = (s.skipIf c).withQuirk q := by
  rw [skipIf_eq, skipIf_eq]
  rfl

@[simp] theorem pop_withQuirk : (s.withQuirk q).pop = s.pop.map fun p => (p.1, p.2.withQuirk q) := by
  rcases Nat.eq_zero_or_pos s.sp.val with h | h
  · rw [pop_empty h, pop_empty (s := s.withQuirk q) h]
    rfl
  · have hk : s.sp.val = (⟨s.sp.val - 1, by omega⟩ : Fin 16).val + 1 := (Nat.sub_add_cancel h).symm
    rw [pop_of_pos _ hk, pop_of_pos (s := s.withQuirk q) _ hk]
    rfl

@[simp] theorem push_withQuirk (a : Word) : (s.withQuirk q).push a = (s.push a).map (·.withQuirk q) := by
  rcases sp_cases s.sp with ⟨k, h⟩ | h
  · rw [push_of_lt k h, push_of_lt (s := s.withQuirk q) k h]
    rfl
  · rw [push_full h, push_full (s := s.withQuirk q) h]
    rfl

/-- With X = Y both shift sources are V[X], whatever QUIRK is (spec/42_alu.md R190). -/
theorem shiftSource_self (s : State) (x : Reg) : s.shiftSource x x = s.reg x := ite_self _

/-- The two sides of the condition of INDEX_OVERFLOW (spec/43_memory_ops.md R221). -/
theorem execAddI_overflow {x : Reg} (h : s.i.toNat + (s.reg x).toNat > 0xFFFF) :
    execAddI x s = s.raise .indexOverflow := if_pos h

theorem execAddI_fits {x : Reg} (h : ¬ s.i.toNat + (s.reg x).toNat > 0xFFFF) :
    execAddI x s = .next (s.setIndex (BitVec.ofNat 16 (s.i.toNat + (s.reg x).toNat))) := if_neg h

/-! ### Outcomes that agree -/

theorem agreeButQuirk_next (t : State) (q : Bool) : AgreeButQuirk (.next t) (.next (t.withQuirk q)) := by
  rintro _ _ ⟨⟩ ⟨⟩
  rfl

/-- A fault raised outside a cycle goes back to the state itself (notes/assumptions/6.md). -/
theorem raise_idle (h : s.inCycle = none) (cause : FaultCause) :
    s.raise cause = .next { s with toArch := s.toArch.faulted cause (some s.opcode) } := by
  simp only [State.raise, State.takeFault, State.startArch, h, Arch.faulted]

/-- A fault from two states that differ in QUIRK alone: both go back to one S0, or, outside a cycle, to themselves. -/
theorem agreeButQuirk_raise (cause : FaultCause) : AgreeButQuirk (s.raise cause) ((s.withQuirk q).raise cause) := by
  cases h : s.inCycle with
  | none =>
    rw [raise_idle h, raise_idle (s := s.withQuirk q) h]
    exact agreeButQuirk_next _ q
  | some c =>
    rw [raise_in_cycle h, raise_in_cycle (s := s.withQuirk q) h]
    rintro _ _ ⟨⟩ ⟨⟩
    rfl

/-- An instruction that is no shift with X and Y distinct does not see QUIRK. -/
theorem exec_agreeButQuirk (i : Instr) (hi : ∀ x y, x ≠ y → i ≠ .shr x y ∧ i ≠ .shl x y) :
    AgreeButQuirk (exec i s) (exec i (s.withQuirk q)) := by
  cases i with
  | cls | jp | jpV0 | ldImm | addImm | ldReg | orReg | andReg | xorReg | addReg | subReg | subnReg | ldI
  | rnd | ldVxDt | ldDtVx | ldStVx | ldFont => exact agreeButQuirk_next _ q
  | shr x y =>
    obtain rfl : x = y := by_contra fun hxy => (hi x y hxy).1 rfl
    simp only [exec, execShr, shiftSource_self]
    exact agreeButQuirk_next _ q
  | shl x y =>
    obtain rfl : x = y := by_contra fun hxy => (hi x y hxy).2 rfl
    simp only [exec, execShl, shiftSource_self]
    exact agreeButQuirk_next _ q
  | seImm | sneImm | seReg | sneReg =>
    simp only [exec, execSeImm, execSneImm, execSeReg, execSneReg, skipIf_withQuirk]
    exact agreeButQuirk_next _ q
  | ret =>
    simp only [exec, execRet, pop_withQuirk]
    cases s.pop with
    | none => exact agreeButQuirk_raise _
    | some p => exact agreeButQuirk_next _ q
  | call nnn =>
    simp only [exec, execCall, State.withQuirk_pc, push_withQuirk]
    cases s.push s.pc with
    | none => exact agreeButQuirk_raise _
    | some t => exact agreeButQuirk_next _ q
  | drw x y n =>
    simp only [exec, execDrw, base_withQuirk, memReads_withQuirk]
    cases s.memReads s.base n.val with
    | none => exact agreeButQuirk_raise _
    | some sprite => exact agreeButQuirk_next _ q
  | skp x | sknp x =>
    simp only [exec, execSkp, execSknp, reg_withQuirk, key_withQuirk, skipIf_withQuirk]
    cases s.key (s.reg x) with
    | none => exact agreeButQuirk_raise _
    | some pressed => exact agreeButQuirk_next _ q
  | ldKey x =>
    simp only [exec, execLdKey, State.withQuirk_keypad]
    cases lowestKey s.keypad <;> exact agreeButQuirk_next _ q
  | addI x =>
    simp only [exec]
    by_cases h : s.i.toNat + (s.reg x).toNat > 0xFFFF
    · rw [execAddI_overflow h, execAddI_overflow (s := s.withQuirk q) h]
      exact agreeButQuirk_raise _
    · rw [execAddI_fits h, execAddI_fits (s := s.withQuirk q) h]
      exact agreeButQuirk_next _ q
  | ldBcd x =>
    simp only [exec, execLdBcd, base_withQuirk, reg_withQuirk, memWrites_withQuirk]
    cases s.memWrites s.base (bcdDigits (s.reg x)) with
    | none => exact agreeButQuirk_raise _
    | some t => exact agreeButQuirk_next _ q
  | storeRegs x =>
    simp only [exec, execStoreRegs, base_withQuirk, regsUpTo_withQuirk, memWrites_withQuirk]
    cases s.memWrites s.base (s.regsUpTo x) with
    | none => exact agreeButQuirk_raise _
    | some t => exact agreeButQuirk_next _ q
  | loadRegs x =>
    simp only [exec, execLoadRegs, base_withQuirk, memReads_withQuirk, setRegs_withQuirk]
    cases s.memReads s.base (x.val + 1) with
    | none => exact agreeButQuirk_raise _
    | some bytes => exact agreeButQuirk_next _ q

/-- Settles O30: the two runs agree in everything but QUIRK, instruction by instruction. -/
theorem quirkChangesTheShiftsOnly : Obligations.QuirkChangesTheShiftsOnly := by
  unfold Obligations.QuirkChangesTheShiftsOnly
  intro i s t t' q hi ht ht'
  exact exec_agreeButQuirk i hi t t' ht ht'

end Sys2Proof.Machine
end

section
/-! The written column of the access matrix (spec/10_state.md R38). An instruction that completes, that is, one that takes
no fatal fault, writes the elements the matrix lists for it and no others. -/

namespace Sys2Proof.Machine

variable {s t : State} {P : State → Prop} {i : Instr}

/-! ### Instructions that complete -/

/-- The outcome has P where it is a next state of a core that has not halted. -/
def Completes (P : State → Prop) (r : Result) : Prop := ∀ t, r = .next t → t.halted = false → P t

theorem completes_next (h : P t) : Completes P (.next t) := by
  rintro _ ⟨⟩ _
  exact h

/-- A fatal fault halts the core, so nothing is left to show. -/
theorem completes_raise {cause : FaultCause} : Completes P (s.raise cause) := by
  rintro _ ⟨⟩ h
  cases h

theorem exec_completes_keeps (i : Instr) (s : State) : Completes (Keeps s) (exec i s) := by
  rcases exec_effect i s with ⟨cause, -, h⟩ | ⟨t, h, hk⟩ <;> rw [h]
  · exact completes_raise
  · exact completes_next hk

/-! ### Which registers differ after a write -/

theorem eq_of_setReg_ne {x r : Reg} {b : Byte} (h : (s.setReg x b).v[r] ≠ s.v[r]) : r = x := by
  by_contra hr
  exact h ((reg_setReg x r b).trans (if_neg hr))

theorem eq_of_setFlag_ne {r : Reg} {c : Bool} (h : (s.setFlag c).v[r] ≠ s.v[r]) : r = 15 := eq_of_setReg_ne h

theorem eq_or_eq_of_setReg_setFlag_ne {x r : Reg} {b : Byte} {c : Bool}
    (h : ((s.setReg x b).setFlag c).v[r] ≠ s.v[r]) : r = x ∨ r = 15 := by
  by_cases hf : ((s.setReg x b).setFlag c).v[r] = (s.setReg x b).v[r]
  · exact .inl (eq_of_setReg_ne (hf ▸ h))
  · exact .inr (eq_of_setFlag_ne hf)

theorem le_of_setRegs_ne {x r : Reg} {bs : List Byte} (hlen : bs.length = x.val + 1)
    (h : (s.setRegs 0 bs).v[r] ≠ s.v[r]) : r ≤ x := by
  rw [setRegs_v] at h
  have hr := (ite_ne_right_iff.1 h).1
  exact Fin.le_def.2 (by omega)

theorem length_of_memReads {a n : Nat} {bs : List Byte} (h : s.memReads a n = some bs) : bs.length = n := by
  rw [memReads_eq] at h
  split at h
  · obtain rfl := Option.some.inj h
    simp
  · cases h

/-! ### The matrix -/

/-- What the matrix says of an instruction that takes `s` to `t`: an element that differs has the instruction on its list.
An instruction's proof gives the elements it writes; the others hold by default, as they are the same in `s` and `t`. -/
structure WritesListed (i : Instr) (s t : State) : Prop where
  v : ∀ r : Reg, t.v[r] ≠ s.v[r] → mayWriteReg i r := by exact fun _ h => absurd rfl h
  index : t.i ≠ s.i → (∃ nnn, i = .ldI nnn) ∨ (∃ x, i = .addI x) ∨ ∃ x, i = .ldFont x := by exact fun h => absurd rfl h
  pc : t.pc ≠ s.pc → mayTransfer i := by exact fun h => absurd rfl h
  sp : t.sp ≠ s.sp → (∃ nnn, i = .call nnn) ∨ i = .ret := by exact fun h => absurd rfl h
  stack : t.stack ≠ s.stack → ∃ nnn, i = .call nnn := by exact fun h => absurd rfl h
  dt : t.dt ≠ s.dt → ∃ x, i = .ldDtVx x := by exact fun h => absurd rfl h
  st : t.st ≠ s.st → ∃ x, i = .ldStVx x := by exact fun h => absurd rfl h
  display : t.display ≠ s.display → i = .cls ∨ ∃ x y n, i = .drw x y n := by exact fun h => absurd rfl h
  mem : t.mem ≠ s.mem → (∃ x, i = .ldBcd x) ∨ ∃ x, i = .storeRegs x := by exact fun h => absurd rfl h

theorem writesListed_pc (a : Word) (h : mayTransfer i) : WritesListed i s { s with pc := a } := { pc := fun _ => h }

theorem writesListed_skipIf (c : Bool) (h : mayTransfer i) : WritesListed i s (s.skipIf c) :=
  skipIf_eq s c ▸ writesListed_pc _ h

theorem writesListed_memWrites {a : Nat} {bs : List Byte} (ht : s.memWrites a bs = some t)
    (h : (∃ x, i = .ldBcd x) ∨ ∃ x, i = .storeRegs x) : WritesListed i s t := by
  obtain ⟨rfl, -⟩ := memWrites_some ht
  exact { mem := fun _ => h }

theorem exec_completes_writesListed (i : Instr) (s : State) : Completes (WritesListed i s) (exec i s) := by
  cases i with
  | cls => exact completes_next { display := fun _ => .inl rfl }
  | jp | jpV0 => exact completes_next (writesListed_pc _ trivial)
  | seImm | sneImm | seReg | sneReg => exact completes_next (writesListed_skipIf _ trivial)
  | ldImm | addImm | ldReg | orReg | andReg | xorReg | rnd | ldVxDt =>
    exact completes_next { v := fun _ h => eq_of_setReg_ne h }
  | addReg | subReg | shr | subnReg | shl => exact completes_next { v := fun _ h => eq_or_eq_of_setReg_setFlag_ne h }
  | ldI nnn => exact completes_next { index := fun _ => .inl ⟨nnn, rfl⟩ }
  | ldFont x => exact completes_next { index := fun _ => .inr (.inr ⟨x, rfl⟩) }
  | ldDtVx x => exact completes_next { dt := fun _ => ⟨x, rfl⟩ }
  | ldStVx x => exact completes_next { st := fun _ => ⟨x, rfl⟩ }
  | ret =>
    rcases Nat.eq_zero_or_pos s.sp.val with h | h
    · simp only [exec, execRet, pop_empty h]
      exact completes_raise
    · simp only [exec, execRet, pop_of_pos ⟨s.sp.val - 1, by omega⟩ (Nat.sub_add_cancel h).symm]
      exact completes_next { pc := fun _ => trivial, sp := fun _ => .inr rfl }
  | call nnn =>
    rcases sp_cases s.sp with ⟨k, h⟩ | h
    · simp only [exec, execCall, push_of_lt k h]
      exact completes_next { pc := fun _ => trivial, sp := fun _ => .inl ⟨nnn, rfl⟩, stack := fun _ => ⟨nnn, rfl⟩ }
    · simp only [exec, execCall, push_full h]
      exact completes_raise
  | drw x y n =>
    simp only [exec, execDrw]
    split
    · exact completes_raise
    · exact completes_next { v := fun _ h => eq_of_setFlag_ne h, display := fun _ => .inr ⟨x, y, n, rfl⟩ }
  | skp x | sknp x =>
    simp only [exec, execSkp, execSknp]
    split
    · exact completes_raise
    · exact completes_next (writesListed_skipIf _ trivial)
  | ldKey x =>
    simp only [exec, execLdKey]
    split
    · exact completes_next { v := fun _ h => eq_of_setReg_ne h }
    · exact completes_next (writesListed_pc _ trivial)
  | addI x =>
    simp only [exec, execAddI]
    split
    · exact completes_raise
    · exact completes_next { index := fun _ => .inr (.inl ⟨x, rfl⟩) }
  | ldBcd x =>
    simp only [exec, execLdBcd]
    split
    · exact completes_raise
    · exact completes_next (writesListed_memWrites ‹_› (.inl ⟨x, rfl⟩))
  | storeRegs x =>
    simp only [exec, execStoreRegs]
    split
    · exact completes_raise
    · exact completes_next (writesListed_memWrites ‹_› (.inr ⟨x, rfl⟩))
  | loadRegs x =>
    simp only [exec, execLoadRegs]
    split
    · exact completes_raise
    · have hlen := length_of_memReads ‹_›
      exact completes_next (setRegs_eq s 0 _ ▸ { v := fun _ h => le_of_setRegs_ne hlen h })

/-- Settles O27: the elements with a list, instruction by instruction, and the elements that no instruction writes. -/
theorem onlyListedInstructionsWriteEachElement : Obligations.OnlyListedInstructionsWriteEachElement := by
  unfold Obligations.OnlyListedInstructionsWriteEachElement
  intro i s t h hh
  have w := exec_completes_writesListed i s t h hh
  have k := exec_completes_keeps i s t h hh
  exact ⟨w.v, w.index, w.pc, w.sp, w.stack, w.dt, w.st, w.display, w.mem, k.keypad, k.opcode, k.quirk, k.faultCause,
    k.faultPc, k.faultWord, k.font⟩

end Sys2Proof.Machine
end

section
/-! The invariant of the machine between host operations (`State.Inv`): it holds at power-on, and every host operation keeps
it. For PC, an instruction that completes moves it in one of six ways, and each of them stays in the range of
spec/10_state.md R26. -/

namespace Sys2Proof.Machine

variable {s s' t : State} {keys : Vector Bool 16} {rnd : Byte}

/-! ### PC and the return addresses -/

/-- PC has room for the fetch advance below 0x0FFF, where a fetch succeeds (spec/40_cycle.md R124). -/
theorem toNat_add_two {a : Word} (h : a.toNat < 0x0FFF) : (a + 2).toNat = a.toNat + 2 := by
  bv_omega

/-- The ways an instruction that completes moves PC (spec/10_state.md R26): not at all, a skip, the rewind of FX0A, a jump
or a call, BNNN, and a return. -/
inductive PcMove (s t : State) : Prop where
  | stay (h : t.pc = s.pc)
  | skip (h : t.pc = s.pc + 2)
  | rewind (h : t.pc = s.pc - 2)
  | jump (nnn : Addr) (h : t.pc = zext16 nnn)
  | offset (nnn : Addr) (h : t.pc = s.offsetTarget nnn)
  | back (k : Fin 16) (h : t.pc = s.stack[k])

theorem pcMove_skipIf (c : Bool) : PcMove s (s.skipIf c) := by
  cases c with
  | false => exact .stay rfl
  | true => exact .skip rfl

theorem exec_completes_pcMove {i : Instr} (hi : mayTransfer i) (s : State) : Completes (PcMove s) (exec i s) := by
  cases i with
  | jp nnn => exact completes_next (.jump nnn rfl)
  | jpV0 nnn => exact completes_next (.offset nnn rfl)
  | seImm | sneImm | seReg | sneReg => exact completes_next (pcMove_skipIf _)
  | ret =>
    rcases Nat.eq_zero_or_pos s.sp.val with h | h
    · simp only [exec, execRet, pop_empty h]
      exact completes_raise
    · simp only [exec, execRet, pop_of_pos ⟨s.sp.val - 1, by omega⟩ (Nat.sub_add_cancel h).symm]
      exact completes_next (.back _ rfl)
  | call nnn =>
    simp only [exec, execCall]
    split
    · exact completes_raise
    · exact completes_next (.jump nnn rfl)
  | skp x | sknp x =>
    simp only [exec, execSkp, execSknp]
    split
    · exact completes_raise
    · exact completes_next (pcMove_skipIf _)
  | ldKey x =>
    simp only [exec, execLdKey]
    split
    · exact completes_next (.stay rfl)
    · exact completes_next (.rewind rfl)
  | cls | ldImm | addImm | ldReg | orReg | andReg | xorReg | addReg | subReg | shr | subnReg | shl | ldI | rnd | drw
  | ldVxDt | ldDtVx | ldStVx | addI | ldFont | ldBcd | storeRegs | loadRegs => exact hi.elim

/-- A call pushes PC, and no other instruction writes the stack (spec/41_flow.md R153). -/
theorem execCall_completes_stack (nnn : Addr) (s : State) :
    Completes (fun t => ∃ k : Fin 16, t.stack = s.stack.set k s.pc) (execCall nnn s) := by
  rcases sp_cases s.sp with ⟨k, h⟩ | h
  · simp only [execCall, push_of_lt k h]
    exact completes_next ⟨k, rfl⟩
  · simp only [execCall, push_full h]
    exact completes_raise

/-- Each move stays in range: 0x1002 after a skip, 0x10FE after BNNN, 0x1000 after a return. The lower bound is for the
rewind, which goes back to where the fetch came from. -/
theorem PcMove.pc_le (hm : PcMove s t) (hlo : 2 ≤ s.pc.toNat) (hhi : s.pc.toNat ≤ 0x1000)
    (hstack : ∀ k : Fin 16, s.stack[k].toNat ≤ 0x1000) : t.pc.toNat ≤ 0x10FE := by
  cases hm with
  | stay h => rw [h]; omega
  | skip h => rw [h]; bv_omega
  | rewind h => rw [h]; bv_omega
  | jump nnn h =>
    rw [h, zext16_eq, BitVec.toNat_ofNat]
    have := nnn.isLt
    omega
  | offset nnn h =>
    rw [h, offsetTarget_eq, BitVec.toNat_ofNat]
    have := nnn.isLt
    have := s.v[0].isLt
    omega
  | back k h =>
    have := hstack k
    rw [h]
    omega

/-- Where Execute may start: PC just advanced by a fetch that succeeded, and return addresses that some fetch advanced. -/
structure State.Fetched (s : State) : Prop where
  pc_ge : 2 ≤ s.pc.toNat
  pc_le : s.pc.toNat ≤ 0x1000
  stack_le : ∀ k : Fin 16, s.stack[k].toNat ≤ 0x1000

theorem exec_completes_pcInRange (i : Instr) (hs : s.Fetched) : Completes (fun t => t.pcInRange) (exec i s) := by
  intro t h hh
  have hw := exec_completes_writesListed i s t h hh
  constructor
  · by_cases hi : mayTransfer i
    · exact (exec_completes_pcMove hi s t h hh).pc_le hs.pc_ge hs.pc_le hs.stack_le
    · have hpc : t.pc = s.pc := by_contra fun hne => hi (hw.pc hne)
      exact PcMove.pc_le (.stay hpc) hs.pc_ge hs.pc_le hs.stack_le
  · intro k
    by_cases hst : t.stack = s.stack
    · rw [hst]
      exact hs.stack_le k
    · obtain ⟨nnn, rfl⟩ := hw.stack hst
      obtain ⟨j, hj⟩ := execCall_completes_stack nnn s t h hh
      simp only [hj, Fin.getElem_fin, Vector.getElem_set]
      split
      · exact hs.pc_le
      · exact hs.stack_le k

theorem execWord_completes_pcInRange (w : Word) (hs : s.Fetched) :
    Completes (fun t => t.pcInRange) (execWord w s) := by
  unfold execWord
  split
  · exact exec_completes_pcInRange _ hs
  · exact completes_next ⟨Nat.le_trans hs.pc_le (by decide), hs.stack_le⟩

/-- A state of the invariant whose fetch succeeds, at the start of Execute. -/
theorem fetched_atExecute (hs : s.Inv) (hpc : s.pc.toNat < 0x0FFF) : (s.atExecute keys rnd).Fetched := by
  have hadv : (s.atExecute keys rnd).pc.toNat = s.pc.toNat + 2 := toNat_add_two hpc
  exact ⟨by omega, by omega, hs.range.2⟩

/-! ### The invariant -/

/-- The invariant speaks of the core, FONT and the running cycle only. -/
theorem State.Inv.of_arch_eq (hs : s.Inv) (ha : t.toArch = s.toArch) (hf : t.font = s.font)
    (hc : t.inCycle = none) : t.Inv where
  idle := hc
  memory := by rw [hf, ha]; exact hs.memory
  range := ha ▸ hs.range
  record := ha ▸ hs.record

theorem inv_of_afterReset {q : Bool} (ha : s.toArch = Arch.afterReset q) (hc : s.inCycle = none) : s.Inv where
  idle := hc
  memory := by rw [ha]; rfl
  range := by
    rw [ha]
    exact ⟨by simp [Arch.afterReset], fun k => by simp [Arch.afterReset]⟩
  record := by
    rw [ha]
    exact ⟨fun _ => ⟨rfl, rfl, rfl⟩, nofun⟩

/-- Settles O24: power-on and reset leave the core at its reset values. -/
theorem invHoldsAtReset : Obligations.InvHoldsAtReset := by
  unfold Obligations.InvHoldsAtReset
  exact ⟨fun font q => inv_of_afterReset (q := q) rfl rfl, inv_of_afterReset (q := Config.shiftQuirkInit) rfl rfl⟩

/-- Settles O26: a fetch that succeeds reads below 0x0FFF, so the advance is exact. -/
theorem fetchAdvanceNeverWraps : Obligations.FetchAdvanceNeverWraps := by
  unfold Obligations.FetchAdvanceNeverWraps
  intro s w _ hw
  rw [fetchWord_eq] at hw
  have hpc : s.pc.toNat < 0x0FFF := by
    by_contra h
    rw [if_neg h] at hw
    cases hw
  rw [State.advance_pc, toNat_add_two hpc]
  omega

/-- A fatal fault goes back to the start of the cycle and writes a coherent record: only a fetch fault, at PC >= 0x0FFF, has
no word (spec/60_exceptions.md R303). -/
theorem inv_faulted (hs : s.Inv) {cause : FaultCause} {word : Option Word} (hc : cause ≠ .noFault)
    (hw : word = none → cause = .addressFault ∧ 0x0FFF ≤ s.pc.toNat) :
    ({ s with toArch := s.toArch.faulted cause word, inCycle := none, out := .quiet } : State).Inv where
  idle := rfl
  memory := hs.memory
  range := hs.range
  record := ⟨nofun, fun _ => ⟨hc, rfl, hw⟩⟩

/-- A completed Execute keeps memory canonical and the record clear; only PC and the stack need their range. -/
theorem inv_completed {u : State} (hs : s.Inv) (hk : Keeps (s.atExecute keys rnd) { u with out := .quiet })
    (hu : u.halted = false) (hr : u.pcInRange) :
    ({ u with dt := tick u.dt, st := tick u.st, inCycle := none } : State).Inv where
  idle := rfl
  memory := hk.memory hs.memory
  range := hr
  record := by
    obtain ⟨hcause, hpc, hword⟩ := hs.record.1 (hk.halted.symm.trans hu)
    exact ⟨fun _ => ⟨hk.faultCause.trans hcause, hk.faultPc.trans hpc, hk.faultWord.trans hword⟩,
      fun h => absurd (hu.symm.trans h) Bool.false_ne_true⟩

theorem cycle_keeps_inv (hs : s.Inv) (h : cycle keys rnd s = .next t) : t.Inv := by
  cases hh : s.halted with
  | true =>
    rw [cycle_halted hh] at h
    cases h
    exact hs.of_arch_eq rfl rfl hs.idle
  | false =>
    rcases cycle_cases (keys := keys) (rnd := rnd) hh with
      ⟨hpc, hc⟩ | ⟨hpc, cause, hcause, hc⟩ | ⟨hpc, u, hu, huh, hk, hc⟩ <;> rw [hc] at h <;> cases h
    · exact inv_faulted hs (by decide) fun _ => ⟨rfl, hpc⟩
    · exact inv_faulted hs hcause nofun
    · exact inv_completed hs hk huh (execWord_completes_pcInRange _ (fetched_atExecute hs hpc) u hu huh)

/-- The operations other than a cycle: reset restores the reset values, a load keeps memory canonical, and the others leave
what the invariant speaks of. -/
theorem perform_keeps_inv {op : HostOp} (hop : ∀ keys rnd, op ≠ .cycle keys rnd) (hs : s.Inv)
    (h : perform op s = .next t) : t.Inv := by
  cases op with
  | reset =>
    cases h
    exact inv_of_afterReset rfl rfl
  | load source =>
    cases h
    cases source with
    | unreadable => exact hs.of_arch_eq rfl rfl hs.idle
    | image bytes =>
      simp only [State.performLoad]
      split
      · next hfits =>
        have hlen := (imageFits_iff bytes).1 hfits
        exact ⟨hs.idle, Memory.wf_copyIn bytes hs.memory (by rw [Config.progBase]; omega), hs.range, hs.record⟩
      · exact hs.of_arch_eq rfl rfl hs.idle
  | setQuirk b =>
    cases h
    exact ⟨hs.idle, hs.memory, hs.range, hs.record⟩
  | cycle keys rnd => exact absurd rfl (hop keys rnd)
  | read =>
    cases h
    exact hs.of_arch_eq rfl rfl hs.idle

theorem hostCycle_inv (hc : s.HostCycle keys rnd s') (hs : s.Inv) : s'.Inv := by
  obtain ⟨ha, hf⟩ := hostCycle_arch hc
  refine hs.of_arch_eq ha hf ?_
  rcases hc with ⟨-, h⟩ | ⟨-, -, -, rfl⟩
  · rw [h]
    exact hs.idle
  · exact hs.idle

/-- Settles O25: each host operation keeps the invariant, and taking it off the script does not matter to it. -/
theorem stepKeepsTheInvariant : Obligations.StepKeepsTheInvariant := by
  unfold Obligations.StepKeepsTheInvariant
  intro s t hs h
  rcases step_cases s with ⟨keys, rnd, s', hc⟩ | ⟨op, rest, hp, hop⟩
  · exact cycle_keeps_inv (hostCycle_inv hc hs) (step_of_hostCycle hc ▸ h)
  · rw [step_of_pending hp] at h
    exact perform_keeps_inv hop (hs.of_arch_eq (t := { s with pending := rest }) rfl rfl hs.idle) h

end Sys2Proof.Machine
end

section
/-! OPCODE does not affect execution (spec/10_state.md R33). The fetch overwrites OPCODE before anything reads it, so two
machines that differ in OPCODE alone start Execute in states that differ in the S0 kept for the rollback alone. No
instruction reads S0: only a fatal fault does, which brings back each machine's own. -/

namespace Sys2Proof.Machine

variable {s s' t : State} {c : Option CycleContext} {keys : Vector Bool 16} {rnd : Byte} {o : Word}

/-! ### What the running cycle is to an instruction -/

/-- The machine with another running cycle, and nothing else changed. -/
def State.withCycle (s : State) (c : Option CycleContext) : State := { s with inCycle := c }

@[simp] theorem State.withCycle_keypad : (s.withCycle c).keypad = s.keypad := rfl
@[simp] theorem reg_withCycle (r : Reg) : (s.withCycle c).reg r = s.reg r := rfl
@[simp] theorem regsUpTo_withCycle (x : Reg) : (s.withCycle c).regsUpTo x = s.regsUpTo x := rfl
@[simp] theorem base_withCycle : (s.withCycle c).base = s.base := rfl
@[simp] theorem key_withCycle (x : Byte) : (s.withCycle c).key x = s.key x := rfl
@[simp] theorem setReg_withCycle (r : Reg) (b : Byte) : (s.withCycle c).setReg r b = (s.setReg r b).withCycle c := rfl

@[simp] theorem memReads_withCycle (a n : Nat) : (s.withCycle c).memReads a n = s.memReads a n := by
  rw [memReads_eq, memReads_eq]
  rfl

@[simp] theorem memWrites_withCycle (a : Nat) (bs : List Byte) :
    (s.withCycle c).memWrites a bs = (s.memWrites a bs).map (·.withCycle c) := by
  rw [memWrites_eq, memWrites_eq]
  split <;> rfl

@[simp] theorem setRegs_withCycle (k : Nat) (bs : List Byte) :
    (s.withCycle c).setRegs k bs = (s.setRegs k bs).withCycle c := by
  induction bs generalizing s k with
  | nil => rfl
  | cons b bs ih =>
    rw [State.setRegs, State.setRegs, ← ih]
    split <;> rfl

@[simp] theorem skipIf_withCycle (b : Bool) : (s.withCycle c).skipIf b = (s.skipIf b).withCycle c := by
  cases b <;> rfl

/-! ### Outcomes that differ in the running cycle alone -/

/-- From `s` and from `s` with the running cycle `c`: the same fatal fault, or the same next state but for the cycle. -/
def AgreeButCycle (s : State) (c : Option CycleContext) (r r' : Result) : Prop :=
  (∃ cause, r = s.raise cause ∧ r' = (s.withCycle c).raise cause) ∨ ∃ t, r = .next t ∧ r' = .next (t.withCycle c)

theorem agreeButCycle_raise (cause : FaultCause) :
    AgreeButCycle s c (s.raise cause) ((s.withCycle c).raise cause) := .inl ⟨cause, rfl, rfl⟩

theorem agreeButCycle_next (t : State) : AgreeButCycle s c (.next t) (.next (t.withCycle c)) := .inr ⟨t, rfl, rfl⟩

/-- CXNN reads the random byte of the running cycle, and no instruction reads anything else of it. -/
theorem exec_agreeButCycle (i : Instr) (hi : ∀ x nn, i = .rnd x nn → (s.withCycle c).drawByte = s.drawByte) :
    AgreeButCycle s c (exec i s) (exec i (s.withCycle c)) := by
  cases i with
  | cls | jp | jpV0 | ldImm | addImm | ldReg | orReg | andReg | xorReg | addReg | subReg | shr | subnReg | shl | ldI
  | ldVxDt | ldDtVx | ldStVx | ldFont => exact agreeButCycle_next _
  | rnd x nn =>
    simp only [exec, execRnd, hi x nn rfl, setReg_withCycle]
    exact agreeButCycle_next _
  | seImm | sneImm | seReg | sneReg =>
    simp only [exec, execSeImm, execSneImm, execSeReg, execSneReg, skipIf_withCycle]
    exact agreeButCycle_next _
  | ret =>
    rcases Nat.eq_zero_or_pos s.sp.val with h | h
    · simp only [exec, execRet, pop_empty h, pop_empty (s := s.withCycle c) h]
      exact agreeButCycle_raise _
    · have hk : s.sp.val = (⟨s.sp.val - 1, by omega⟩ : Fin 16).val + 1 := (Nat.sub_add_cancel h).symm
      simp only [exec, execRet, pop_of_pos _ hk, pop_of_pos (s := s.withCycle c) _ hk]
      exact agreeButCycle_next _
  | call nnn =>
    rcases sp_cases s.sp with ⟨k, h⟩ | h
    · simp only [exec, execCall, push_of_lt k h, push_of_lt (s := s.withCycle c) k h]
      exact agreeButCycle_next _
    · simp only [exec, execCall, push_full h, push_full (s := s.withCycle c) h]
      exact agreeButCycle_raise _
  | drw x y n =>
    simp only [exec, execDrw, base_withCycle, memReads_withCycle]
    cases s.memReads s.base n.val with
    | none => exact agreeButCycle_raise _
    | some sprite => exact agreeButCycle_next _
  | skp x | sknp x =>
    simp only [exec, execSkp, execSknp, reg_withCycle, key_withCycle, skipIf_withCycle]
    cases s.key (s.reg x) with
    | none => exact agreeButCycle_raise _
    | some pressed => exact agreeButCycle_next _
  | ldKey x =>
    simp only [exec, execLdKey, State.withCycle_keypad]
    cases lowestKey s.keypad <;> exact agreeButCycle_next _
  | addI x =>
    by_cases h : s.i.toNat + (s.reg x).toNat > 0xFFFF
    · simp only [exec, execAddI_overflow h, execAddI_overflow (s := s.withCycle c) h]
      exact agreeButCycle_raise _
    · simp only [exec, execAddI_fits h, execAddI_fits (s := s.withCycle c) h]
      exact agreeButCycle_next _
  | ldBcd x =>
    simp only [exec, execLdBcd, base_withCycle, reg_withCycle, memWrites_withCycle]
    cases s.memWrites s.base (bcdDigits (s.reg x)) with
    | none => exact agreeButCycle_raise _
    | some t => exact agreeButCycle_next _
  | storeRegs x =>
    simp only [exec, execStoreRegs, base_withCycle, regsUpTo_withCycle, memWrites_withCycle]
    cases s.memWrites s.base (s.regsUpTo x) with
    | none => exact agreeButCycle_raise _
    | some t => exact agreeButCycle_next _
  | loadRegs x =>
    simp only [exec, execLoadRegs, base_withCycle, memReads_withCycle, setRegs_withCycle]
    cases s.memReads s.base (x.val + 1) with
    | none => exact agreeButCycle_raise _
    | some bytes => exact agreeButCycle_next _

theorem execWord_agreeButCycle (w : Word)
    (hw : ∀ x nn, decode w = .instr (.rnd x nn) → (s.withCycle c).drawByte = s.drawByte) :
    AgreeButCycle s c (execWord w s) (execWord w (s.withCycle c)) := by
  unfold execWord
  cases hd : decode w with
  | instr i => exact exec_agreeButCycle i fun x nn hi => hw x nn (by rw [hd, hi])
  | unknown u => exact agreeButCycle_next _

/-! ### Machines that differ in OPCODE alone -/

/-- The machine with another OPCODE, and nothing else changed. -/
def State.withOpcode (s : State) (o : Word) : State := { s with opcode := o }

/-- Two outcomes with next states have the same next state but for OPCODE. -/
def AgreeButOpcode (r r' : Result) : Prop :=
  ∀ t t', r = .next t → r' = .next t' → t' = { t with opcode := t'.opcode }

theorem agreeButOpcode_next (t : State) (o : Word) : AgreeButOpcode (.next t) (.next (t.withOpcode o)) := by
  rintro _ _ ⟨⟩ ⟨⟩
  rfl

theorem agreeButOpcode_refl (r : Result) : AgreeButOpcode r r := by
  rintro t _ rfl ⟨⟩
  rfl

/-- The fetch overwrites OPCODE, so at the start of Execute only S0 still holds the other one. -/
theorem atExecute_withOpcode : (s.withOpcode o).atExecute keys rnd =
    (s.atExecute keys rnd).withCycle (some ⟨(s.withOpcode o).toArch, rnd⟩) := rfl

/-- The end of a cycle drops the running cycle. -/
theorem endCycle_withCycle (t : State) (c : Option CycleContext) : (t.withCycle c).endCycle = t.endCycle := by
  cases h : t.halted with
  | true => rw [endCycle_halted t h, endCycle_halted (t.withCycle c) h]; rfl
  | false => rw [endCycle_running t h, endCycle_running (t.withCycle c) h]; rfl

/-- A fatal fault brings back each machine's own OPCODE; a completed Execute leaves the two machines the same. -/
theorem endCycle_execWord_agreeButOpcode :
    AgreeButOpcode (onNext State.endCycle (execWord s.wordAtPc (s.atExecute keys rnd)))
      (onNext State.endCycle (execWord s.wordAtPc ((s.withOpcode o).atExecute keys rnd))) := by
  have hagree := execWord_agreeButCycle (s := s.atExecute keys rnd) (c := some ⟨(s.withOpcode o).toArch, rnd⟩)
    s.wordAtPc fun _ _ _ => rfl
  rw [← atExecute_withOpcode] at hagree
  rcases hagree with ⟨cause, h, h'⟩ | ⟨t, h, h'⟩ <;> rw [h, h']
  · rw [← atExecute_withOpcode, endCycle_raise, endCycle_raise]
    exact agreeButOpcode_next _ o
  · rw [onNext, onNext, endCycle_withCycle]
    exact agreeButOpcode_refl _

theorem cycle_agreeButOpcode : AgreeButOpcode (cycle keys rnd s) (cycle keys rnd (s.withOpcode o)) := by
  cases hh : s.halted with
  | true =>
    rw [cycle_halted hh, cycle_halted (s := s.withOpcode o) hh]
    exact agreeButOpcode_next _ o
  | false =>
    rw [cycle_eq hh, cycle_eq (s := s.withOpcode o) hh]
    by_cases hpc : s.pc.toNat < 0x0FFF
    · rw [if_pos hpc, if_pos (c := (s.withOpcode o).pc.toNat < 0x0FFF) hpc]
      exact endCycle_execWord_agreeButOpcode
    · rw [if_neg hpc, if_neg (c := (s.withOpcode o).pc.toNat < 0x0FFF) hpc]
      exact agreeButOpcode_next _ o

theorem perform_agreeButOpcode (op : HostOp) : AgreeButOpcode (perform op s) (perform op (s.withOpcode o)) := by
  cases op with
  | reset => exact agreeButOpcode_refl _
  | load source =>
    cases source with
    | unreadable => exact agreeButOpcode_next _ o
    | image bytes =>
      simp only [perform, State.performLoad]
      split <;> exact agreeButOpcode_next _ o
  | setQuirk | read => exact agreeButOpcode_next _ o
  | cycle keys rnd => exact cycle_agreeButOpcode

/-- Taking the next operation off the script does not read OPCODE. -/
theorem nextOp_withOpcode : (s.withOpcode o).nextOp = (s.nextOp.1, s.nextOp.2.withOpcode o) := by
  simp only [State.nextOp, State.withOpcode]
  split <;> rfl

/-- Settles O28: the two machines perform the same operation, and each operation keeps them alike but for OPCODE. -/
theorem opcodeRegisterDoesNotAffectExecution : Obligations.OpcodeRegisterDoesNotAffectExecution := by
  unfold Obligations.OpcodeRegisterDoesNotAffectExecution
  intro s t t' o ht ht'
  refine perform_agreeButOpcode (o := o) s.nextOp.1 t t' ht ?_
  have hstep : step (s.withOpcode o) = .next t' := ht'
  rwa [step, performNext, nextOp_withOpcode] at hstep

end Sys2Proof.Machine
end

section
/-! Memory (spec/20_memory.md): a byte access takes place below 0x1000 and nowhere else, a read gives the last byte written,
and FX55 is a run of such writes, whose bytes a later fetch reads big-endian. -/

namespace Sys2Proof.Machine

variable {s t : State} {a : Nat} {b : Byte} {x : Reg}

/-! ### One byte -/

/-- A write below 0x1000 takes place (spec/20_memory.md R65). -/
theorem memWrite_eq_some (h : a < 4096) : s.memWrite a b = some (s.setMem (Memory.write s.font s.mem a b)) :=
  if_pos h

theorem memWrite_eq_none (h : 4096 ≤ a) : s.memWrite a b = none :=
  if_neg (Nat.not_lt.2 h)

/-- A write that takes place is below 0x1000 and changes memory only. -/
theorem memWrite_some (h : s.memWrite a b = some t) : a < 4096 ∧ t = s.setMem (Memory.write s.font s.mem a b) := by
  by_cases ha : a < 4096
  · rw [memWrite_eq_some ha] at h
    exact ⟨ha, (Option.some.inj h).symm⟩
  · rw [memWrite_eq_none (Nat.not_lt.1 ha)] at h
    cases h

/-- Every address reads the byte last written to it (spec/20_memory.md R73). -/
theorem byteAt_memWrite (hwf : Memory.wf s.font s.mem = true) (h : s.memWrite a b = some t) (a' : Nat) :
    t.byteAt a' = if a' = a then b else s.byteAt a' := by
  obtain ⟨-, rfl⟩ := memWrite_some h
  exact Memory.read_write hwf

/-- Where two states hold the same byte, a read answers the same in both, the fault included. -/
theorem memRead_congr (h : t.byteAt a = s.byteAt a) : t.memRead a = s.memRead a := by
  rw [State.memRead, State.memRead, h]

/-! ### FX55 -/

/-- The k-th byte FX55 stores is V[k] (spec/43_memory_ops.md R224). -/
theorem getD_regsUpTo {k : Reg} (h : k ≤ x) : (s.regsUpTo x).getD k.val 0 = s.v[k] := by
  have hk : k.val < (s.regsUpTo x).length := by
    rw [regsUpTo_length]
    exact Nat.lt_succ_of_le h
  rw [List.getD_eq_getElem _ _ hk]
  simp only [State.regsUpTo, List.getElem_take, Vector.getElem_toList, Fin.getElem_fin]

/-- FX55 in range copies V0..VX to I..I+X and changes memory only (spec/43_memory_ops.md R224). -/
theorem exec_storeRegs (hfit : s.i.toNat + x.val < 4096) :
    exec (.storeRegs x) s = .next (s.setMem (Memory.copyIn s.font s.mem s.i.toNat (s.regsUpTo x))) := by
  have hw : s.memWrites s.base (s.regsUpTo x) =
      some (s.setMem (Memory.copyIn s.font s.mem s.i.toNat (s.regsUpTo x))) := by
    rw [memWrites_eq, if_pos (.inr (by rw [regsUpTo_length]; exact hfit))]
    rfl
  simp only [exec, execStoreRegs, hw]

/-- What every address holds after FX55: V0..VX at I..I+X, and any other byte as before (spec/43_memory_ops.md R224). -/
theorem byteAt_exec_storeRegs (hwf : Memory.wf s.font s.mem = true) (hfit : s.i.toNat + x.val < 4096)
    (h : exec (.storeRegs x) s = .next t) (a : Nat) :
    t.byteAt a = if s.i.toNat ≤ a ∧ a < s.i.toNat + (x.val + 1)
      then (s.regsUpTo x).getD (a - s.i.toNat) 0 else s.byteAt a := by
  rw [exec_storeRegs hfit] at h
  cases h
  have hlen : s.i.toNat + (s.regsUpTo x).length ≤ 4096 := by rwa [regsUpTo_length]
  rw [← regsUpTo_length s x]
  exact Memory.read_copyIn _ hwf hlen

/-- After FX55 the address I + k holds V[k], for k up to X. -/
theorem byteAt_stored_register (hwf : Memory.wf s.font s.mem = true) (hfit : s.i.toNat + x.val < 4096)
    (h : exec (.storeRegs x) s = .next t) {k : Reg} (hk : k ≤ x) : t.byteAt (s.i.toNat + k.val) = s.v[k] := by
  have hin : s.i.toNat ≤ s.i.toNat + k.val ∧ s.i.toNat + k.val < s.i.toNat + (x.val + 1) := by
    have : k.val ≤ x.val := hk
    omega
  rw [byteAt_exec_storeRegs hwf hfit h, if_pos hin, Nat.add_sub_cancel_left, getD_regsUpTo hk]

/-! ### The obligations -/

/-- Settles O31: of a write that takes place, by the law of a read after a write at the address and at every other one. -/
theorem memoryReadsTheMostRecentWrite : Obligations.MemoryReadsTheMostRecentWrite := by
  unfold Obligations.MemoryReadsTheMostRecentWrite
  intro s t a b hwf h
  obtain ⟨ha, ht⟩ := memWrite_some h
  refine ⟨?_, fun a' hne => memRead_congr ?_, ?_⟩
  · rw [memRead_eq_some ha, byteAt_memWrite hwf h, if_pos rfl]
  · rw [byteAt_memWrite hwf h, if_neg hne]
  · rw [ht]
    exact Memory.wf_write hwf ha

/-- Settles O52: the fetch is in range because I + X is, and it reads V[k] at PC = I + k and V[k+1] after it. -/
theorem storedRegistersAreFetched : Obligations.StoredRegistersAreFetched := by
  unfold Obligations.StoredRegistersAreFetched
  intro x s t k pc hwf hfit hk hpc h
  have hhi : t.byteAt pc.toNat = s.v[k.castSucc] := by
    rw [hpc]
    exact byteAt_stored_register hwf hfit h (k := k.castSucc) (Nat.le_of_succ_le hk)
  have hlo : t.byteAt (pc.toNat + 1) = s.v[k.succ] := by
    rw [hpc]
    exact byteAt_stored_register hwf hfit h (k := k.succ) hk
  have hrange : pc.toNat < 0x0FFF := by omega
  rw [fetchWord_eq, if_pos hrange, ← hhi, ← hlo]
  rfl

/-- Settles O32: reads and writes are both guarded by the one bound on the address. -/
theorem accessesOutsideMemoryDoNotTakePlace : Obligations.AccessesOutsideMemoryDoNotTakePlace := by
  unfold Obligations.AccessesOutsideMemoryDoNotTakePlace
  intro s a b
  constructor
  · intro h
    exact ⟨memRead_eq_none h, memWrite_eq_none h⟩
  · intro h
    exact ⟨memRead_eq_some h, _, memWrite_eq_some h⟩

end Sys2Proof.Machine
end

section
/-! The encoding (spec/30_encoding.md). Each format of R92 has one lemma per direction: its rows decode what the format
encodes, and a word that selects one of its rows is what the decoded instruction encodes. The decoder's table has the match
and mask values of R94, so a word is unknown iff it misses them all; read by the first nibble, that is the list of R97. -/

namespace Sys2Proof

open Machine

variable {op n : BitVec 4} {sub8 : Byte} {m : Word} {name : String}

/-! ### A row decodes what its format encodes -/

section
variable (k : Fin 34) (x y : Reg) (nn : Byte) (nnn : Addr)

theorem decode_encodeNNN {f : Addr → Instr}
    (hrow : opcodeTable[k]'k.isLt = ⟨name, op ++ 0#12, 0xF000, fun w => f (fieldNNN w)⟩) :
    decode (encodeNNN op nnn) = .instr (f nnn) := by
  have h := decode_row (w := encodeNNN op nnn) k (by rw [hrow]; exact encodeNNN_mask op nnn)
  simpa [hrow] using h

theorem decode_encodeXNN {f : Reg → Byte → Instr}
    (hrow : opcodeTable[k]'k.isLt = ⟨name, op ++ 0#12, 0xF000, fun w => f (fieldX w) (fieldNN w)⟩) :
    decode (encodeXNN op x nn) = .instr (f x nn) := by
  have h := decode_row (w := encodeXNN op x nn) k (by rw [hrow]; exact encodeXNN_mask op x nn)
  simpa [hrow] using h

theorem decode_encodeXYN (count : Fin 16) {f : Reg → Reg → Fin 16 → Instr}
    (hrow : opcodeTable[k]'k.isLt = ⟨name, op ++ 0#12, 0xF000, fun w => f (fieldX w) (fieldY w) (fieldN w)⟩) :
    decode (encodeXYN op x y (nibble count)) = .instr (f x y count) := by
  have h := decode_row (w := encodeXYN op x y (nibble count)) k (by rw [hrow]; exact encodeXYN_mask op _ x y)
  simpa [hrow] using h

theorem decode_encodeXYs {f : Reg → Reg → Instr}
    (hrow : opcodeTable[k]'k.isLt = ⟨name, op ++ 0#8 ++ n, 0xF00F, fun w => f (fieldX w) (fieldY w)⟩) :
    decode (encodeXYN op x y n) = .instr (f x y) := by
  have h := decode_row (w := encodeXYN op x y n) k (by rw [hrow]; exact encodeXYN_mask_sub op n x y)
  simpa [hrow] using h

theorem decode_encodeXs {f : Reg → Instr}
    (hrow : opcodeTable[k]'k.isLt = ⟨name, op ++ 0#4 ++ sub8, 0xF0FF, fun w => f (fieldX w)⟩) :
    decode (encodeXs op x sub8) = .instr (f x) := by
  have h := decode_row (w := encodeXs op x sub8) k (by rw [hrow]; exact encodeXs_mask op x sub8)
  simpa [hrow] using h

end

/-! ### What a row decodes encodes back -/

theorem append_zero_append_inj {k l j : Nat} {a a' : BitVec k} {b b' : BitVec j} (h : a ++ 0#l ++ b = a' ++ 0#l ++ b') :
    a = a' ∧ b = b' := by
  have hhigh := congrArg (BitVec.extractLsb' j (k + l)) h
  have hlow := congrArg (BitVec.extractLsb' 0 j) h
  rw [BitVec.extractLsb'_append_eq_left, BitVec.extractLsb'_append_eq_left] at hhigh
  rw [BitVec.extractLsb'_append_eq_right, BitVec.extractLsb'_append_eq_right] at hlow
  exact ⟨(BitVec.append_left_inj _).1 hhigh, hlow⟩

theorem op_of_and_F000 {w : Word} (h : w &&& 0xF000 = op ++ 0#12) : w.extractLsb' 12 4 = op :=
  (BitVec.append_left_inj _).1 ((and_F000 w).symm.trans h)

theorem op_and_nibble_of_and_F00F {w : Word} (h : w &&& 0xF00F = op ++ 0#8 ++ n) :
    w.extractLsb' 12 4 = op ∧ w.extractLsb' 0 4 = n :=
  append_zero_append_inj ((and_F00F w).symm.trans h)

theorem op_and_byte_of_and_F0FF {w : Word} (h : w &&& 0xF0FF = op ++ 0#4 ++ sub8) :
    w.extractLsb' 12 4 = op ∧ w.extractLsb' 0 8 = sub8 :=
  append_zero_append_inj ((and_F0FF w).symm.trans h)

/-- A word that selects the row is the encoding of the instruction the row makes of it. -/
def Row.RoundTrips (r : Row) : Prop := ∀ w, r.selects w = true → encode (r.build w) = w

theorem Row.roundTrips_fixed {i : Instr} (hi : encode i = m) : Row.RoundTrips ⟨name, m, 0xFFFF, fun _ => i⟩ := by
  intro w h
  have hw : w &&& 0xFFFF = m := beq_iff_eq.1 h
  exact hi.trans (hw.symm.trans BitVec.and_allOnes)

theorem Row.roundTrips_NNN {f : Addr → Instr} (hf : ∀ nnn, encode (f nnn) = encodeNNN op nnn) (hm : m = op ++ 0#12) :
    Row.RoundTrips ⟨name, m, 0xF000, fun w => f (fieldNNN w)⟩ := by
  intro w h
  rw [hf, ← op_of_and_F000 ((beq_iff_eq.1 h).trans hm), encodeNNN_fields]

theorem Row.roundTrips_XNN {f : Reg → Byte → Instr} (hf : ∀ x nn, encode (f x nn) = encodeXNN op x nn)
    (hm : m = op ++ 0#12) : Row.RoundTrips ⟨name, m, 0xF000, fun w => f (fieldX w) (fieldNN w)⟩ := by
  intro w h
  rw [hf, ← op_of_and_F000 ((beq_iff_eq.1 h).trans hm), encodeXNN_fields]

theorem Row.roundTrips_XYN {f : Reg → Reg → Fin 16 → Instr}
    (hf : ∀ x y count, encode (f x y count) = encodeXYN op x y (nibble count)) (hm : m = op ++ 0#12) :
    Row.RoundTrips ⟨name, m, 0xF000, fun w => f (fieldX w) (fieldY w) (fieldN w)⟩ := by
  intro w h
  rw [hf, nibble_fieldN, ← op_of_and_F000 ((beq_iff_eq.1 h).trans hm), encodeXYN_fields]

theorem Row.roundTrips_XYs {f : Reg → Reg → Instr} (hf : ∀ x y, encode (f x y) = encodeXYN op x y n)
    (hm : m = op ++ 0#8 ++ n) : Row.RoundTrips ⟨name, m, 0xF00F, fun w => f (fieldX w) (fieldY w)⟩ := by
  intro w h
  obtain ⟨hop, hn⟩ := op_and_nibble_of_and_F00F ((beq_iff_eq.1 h).trans hm)
  rw [hf, ← hop, ← hn, encodeXYN_fields]

theorem Row.roundTrips_Xs {f : Reg → Instr} (hf : ∀ x, encode (f x) = encodeXs op x sub8)
    (hm : m = op ++ 0#4 ++ sub8) : Row.RoundTrips ⟨name, m, 0xF0FF, fun w => f (fieldX w)⟩ := by
  intro w h
  obtain ⟨hop, hsub⟩ := op_and_byte_of_and_F0FF ((beq_iff_eq.1 h).trans hm)
  rw [hf, ← hop, ← hsub, encodeXs_fields]

theorem addressRows_roundTrip : ∀ r ∈ addressRows, r.RoundTrips := by
  simp only [addressRows, List.forall_mem_cons]
  exact ⟨Row.roundTrips_fixed rfl, Row.roundTrips_fixed rfl, Row.roundTrips_NNN (fun _ => rfl) rfl,
    Row.roundTrips_NNN (fun _ => rfl) rfl, Row.roundTrips_NNN (fun _ => rfl) rfl, Row.roundTrips_NNN (fun _ => rfl) rfl,
    List.forall_mem_nil _⟩

theorem immediateRows_roundTrip : ∀ r ∈ immediateRows, r.RoundTrips := by
  simp only [immediateRows, List.forall_mem_cons]
  exact ⟨Row.roundTrips_XNN (fun _ _ => rfl) rfl, Row.roundTrips_XNN (fun _ _ => rfl) rfl,
    Row.roundTrips_XNN (fun _ _ => rfl) rfl, Row.roundTrips_XNN (fun _ _ => rfl) rfl,
    Row.roundTrips_XNN (fun _ _ => rfl) rfl, Row.roundTrips_XYN (fun _ _ _ => rfl) rfl, List.forall_mem_nil _⟩

theorem registerRows_roundTrip : ∀ r ∈ registerRows, r.RoundTrips := by
  intro r hr
  fin_cases hr <;> exact Row.roundTrips_XYs (fun _ _ => rfl) rfl

theorem singleRows_roundTrip : ∀ r ∈ singleRows, r.RoundTrips := by
  intro r hr
  fin_cases hr <;> exact Row.roundTrips_Xs (fun _ => rfl) rfl

theorem opcodeTable_roundTrips : ∀ r ∈ opcodeTable, r.RoundTrips := by
  simp only [opcodeTable, List.forall_mem_append]
  exact ⟨⟨⟨addressRows_roundTrip, immediateRows_roundTrip⟩, registerRows_roundTrip⟩, singleRows_roundTrip⟩

/-! ### The unknown variant -/

/-- The rows of the decoder's table are those of R94 up to the order. -/
theorem opcodeTable_perm_opcodeMap : (opcodeTable.map fun r => (r.mtch, r.mask)).Perm opcodeMap := by
  decide

theorem decode_eq_unknown_iff (w : Word) : decode w = .unknown w ↔ ∀ row ∈ opcodeMap, w &&& row.2 ≠ row.1 := by
  have hrows : (∀ row ∈ opcodeMap, w &&& row.2 ≠ row.1) ↔ ∀ r ∈ opcodeTable, r.selects w = false := by
    simp [← opcodeTable_perm_opcodeMap.mem_iff, Row.selects]
  rw [hrows]
  refine ⟨fun h => (decode_eq_unknown h).2, fun h => ?_⟩
  unfold decode
  rw [List.find?_eq_none.2 fun r hr => by simp [h r hr]]

/-! ### Words as numbers (spec/30_encoding.md R91) -/

section
variable (w : Word)

theorem toNat_op : (w.extractLsb' 12 4).toNat = w.toNat / 4096 := by
  have hw := w.isLt
  rw [BitVec.extractLsb'_toNat, Nat.shiftRight_eq_div_pow]
  omega

theorem toNat_append_eq_add {k l : Nat} (a : BitVec k) (b : BitVec l) : (a ++ b).toNat = a.toNat * 2 ^ l + b.toNat := by
  rw [BitVec.toNat_append, ← Nat.shiftLeft_add_eq_or_of_lt b.isLt, Nat.shiftLeft_eq]

theorem and_FFFF : w &&& 0xFFFF = w := BitVec.and_allOnes

theorem toNat_and_F000 : (w &&& 0xF000).toNat = w.toNat / 4096 * 4096 := by
  rw [and_F000, toNat_append_eq_add, toNat_op]
  simp

theorem toNat_and_F00F : (w &&& 0xF00F).toNat = w.toNat / 4096 * 4096 + w.toNat % 16 := by
  rw [and_F00F, toNat_append_eq_add, toNat_append_eq_add, toNat_op, BitVec.extractLsb'_toNat]
  simp
  omega

theorem toNat_and_F0FF : (w &&& 0xF0FF).toNat = w.toNat / 4096 * 4096 + w.toNat % 256 := by
  rw [and_F0FF, toNat_append_eq_add, toNat_append_eq_add, toNat_op, BitVec.extractLsb'_toNat]
  simp
  omega

/-! ### The unknown space (spec/30_encoding.md R97) -/

/-- A masked word is its first nibble times 4096 and its selector. So, the first nibble being given, a row of another
first nibble is missed, and a row of the same one is missed by the selector: nibble by nibble, the list of R97. -/
theorem misses_opcodeMap_iff : (∀ row ∈ opcodeMap, w &&& row.2 ≠ row.1) ↔ inUnknownSpace w := by
  have hw := w.isLt
  simp only [opcodeMap, inUnknownSpace, List.cons_append, List.nil_append, List.forall_mem_cons, ne_eq, and_FFFF,
    BitVec.toNat_eq, toNat_and_F000, toNat_and_F00F, toNat_and_F0FF, BitVec.reduceToNat]
  generalize hop : w.toNat / 4096 = firstNibble at *
  have : firstNibble < 16 := by omega
  interval_cases firstNibble <;> simp <;> omega

end

/-! ### The obligations -/

/-- Settles O1: each instruction's encoding is read by its row of the table, format by format. -/
theorem decodeOfEncode : Obligations.DecodeOfEncode := by
  unfold Obligations.DecodeOfEncode
  intro i
  cases i with
  | cls => exact decode_row 0 rfl
  | ret => exact decode_row 1 rfl
  | jp nnn => exact decode_encodeNNN 2 nnn rfl
  | call nnn => exact decode_encodeNNN 3 nnn rfl
  | ldI nnn => exact decode_encodeNNN 4 nnn rfl
  | jpV0 nnn => exact decode_encodeNNN 5 nnn rfl
  | seImm x nn => exact decode_encodeXNN 6 x nn rfl
  | sneImm x nn => exact decode_encodeXNN 7 x nn rfl
  | ldImm x nn => exact decode_encodeXNN 8 x nn rfl
  | addImm x nn => exact decode_encodeXNN 9 x nn rfl
  | rnd x nn => exact decode_encodeXNN 10 x nn rfl
  | drw x y count => exact decode_encodeXYN 11 x y count rfl
  | seReg x y => exact decode_encodeXYs 12 x y rfl
  | ldReg x y => exact decode_encodeXYs 13 x y rfl
  | orReg x y => exact decode_encodeXYs 14 x y rfl
  | andReg x y => exact decode_encodeXYs 15 x y rfl
  | xorReg x y => exact decode_encodeXYs 16 x y rfl
  | addReg x y => exact decode_encodeXYs 17 x y rfl
  | subReg x y => exact decode_encodeXYs 18 x y rfl
  | shr x y => exact decode_encodeXYs 19 x y rfl
  | subnReg x y => exact decode_encodeXYs 20 x y rfl
  | shl x y => exact decode_encodeXYs 21 x y rfl
  | sneReg x y => exact decode_encodeXYs 22 x y rfl
  | skp x => exact decode_encodeXs 23 x rfl
  | sknp x => exact decode_encodeXs 24 x rfl
  | ldVxDt x => exact decode_encodeXs 25 x rfl
  | ldKey x => exact decode_encodeXs 26 x rfl
  | ldDtVx x => exact decode_encodeXs 27 x rfl
  | ldStVx x => exact decode_encodeXs 28 x rfl
  | addI x => exact decode_encodeXs 29 x rfl
  | ldFont x => exact decode_encodeXs 30 x rfl
  | ldBcd x => exact decode_encodeXs 31 x rfl
  | storeRegs x => exact decode_encodeXs 32 x rfl
  | loadRegs x => exact decode_encodeXs 33 x rfl

/-- Settles O2: the instruction comes from a row the word selects, and every row of the table round-trips. -/
theorem encodeOfDecode : Obligations.EncodeOfDecode := by
  unfold Obligations.EncodeOfDecode
  intro w i h
  obtain ⟨r, hr, hsel, rfl⟩ := decode_eq_instr h
  exact opcodeTable_roundTrips r hr w hsel

/-- Settles O4: each clause but the last is a row of the table, named by its place there; the last is that of no row. -/
theorem decoderFollowsTheOpcodeMap : Obligations.DecoderFollowsTheOpcodeMap := by
  unfold Obligations.DecoderFollowsTheOpcodeMap
  intro w
  exact ⟨decode_row 0, decode_row 1, decode_row 2, decode_row 3, decode_row 6, decode_row 7, decode_row 12, decode_row 8,
    decode_row 9, decode_row 13, decode_row 14, decode_row 15, decode_row 16, decode_row 17, decode_row 18, decode_row 19,
    decode_row 20, decode_row 21, decode_row 22, decode_row 4, decode_row 5, decode_row 10, decode_row 11, decode_row 23,
    decode_row 24, decode_row 25, decode_row 26, decode_row 27, decode_row 28, decode_row 29, decode_row 30, decode_row 31,
    decode_row 32, decode_row 33, (decode_eq_unknown_iff w).2⟩

/-- Settles O5: the rows differ pairwise in a bit both masks keep, and their match and mask values are those of R94. -/
theorem opcodeRowsAreDisjoint : Obligations.OpcodeRowsAreDisjoint := by
  unfold Obligations.OpcodeRowsAreDisjoint
  exact ⟨fun w _ hr _ hr' => Row.eq_of_pairwise opcodeTable_disjoint hr hr', opcodeTable_perm_opcodeMap⟩

/-- Settles O6: a word is unknown iff it misses every row of R94, and the words that do are those R97 lists. -/
theorem unknownSpaceIsExactlyTheListedOne : Obligations.UnknownSpaceIsExactlyTheListedOne := by
  unfold Obligations.UnknownSpaceIsExactlyTheListedOne
  intro w
  exact ⟨(decode_eq_unknown_iff w).trans (misses_opcodeMap_iff w), fun u h => (decode_eq_unknown h).1⟩

/-- Settles O3: a field of `len` bits from bit `start` is the word divided by 2^start, modulo 2^len. -/
theorem fieldsAreTheNibbles : Obligations.FieldsAreTheNibbles := by
  unfold Obligations.FieldsAreTheNibbles
  intro w
  simp [fieldX, fieldY, fieldN, fieldNN, fieldNNN, BitVec.extractLsb'_toNat, Nat.shiftRight_eq_div_pow]

/-- Settles O7: seven words by the row they select, the eighth by its place in the unknown space. -/
theorem manualWordsDecode : Obligations.ManualWordsDecode := by
  unfold Obligations.ManualWordsDecode
  exact ⟨decode_row 1 rfl, decode_row 3 rfl, decode_row 8 rfl, decode_row 19 rfl, decode_row 29 rfl, decode_row 11 rfl,
    decode_row 23 rfl, (decode_eq_unknown_iff _).2 ((misses_opcodeMap_iff _).2 (.inr (.inr (.inl (by decide)))))⟩

end Sys2Proof
end

section
/-! The cycle and the host's operations (spec/40_cycle.md): what one step performs, what every operation leaves alone,
and what a cycle of a core that has not halted comes to, both for the scripted cycle and for the free one. -/

namespace Sys2Proof.Machine

variable {s s' t : State} {keys : Vector Bool 16} {rnd rnd' : Byte}

/-! ### The host's cycle -/

/-- A cycle of a core that has not halted, in terms of the state before its operation is taken off: a fetch fault at
PC >= 0x0FFF, Execute of the word at PC otherwise (spec/40_cycle.md R121, R124). -/
theorem step_of_hostCycle_running (hc : s.HostCycle keys rnd s') (hh : s.halted = false) :
    step s = if s.pc.toNat < 0x0FFF
      then onNext State.endCycle (execWord s.wordAtPc (s'.atExecute keys rnd))
      else .next { s' with toArch := s.toArch.faulted .addressFault none, inCycle := none, out := .quiet } := by
  have ha := (hostCycle_arch hc).1
  rw [step_of_hostCycle hc, cycle_eq (by rw [ha, hh]), hostCycle_wordAtPc hc, ha]

/-- Execute starts with PC past the instruction. -/
theorem hostCycle_atExecute_pc (hc : s.HostCycle keys rnd s') : (s'.atExecute keys rnd).pc = s.pc + 2 := by
  rw [← (hostCycle_arch hc).1]
  rfl

/-- Execute starts with the word at PC in OPCODE. -/
theorem hostCycle_atExecute_opcode (hc : s.HostCycle keys rnd s') : (s'.atExecute keys rnd).opcode = s.wordAtPc :=
  hostCycle_wordAtPc hc

/-- The word at PC is big-endian: high byte first (spec/20_memory.md R67). -/
theorem wordAtPc_toNat (s : State) :
    s.wordAtPc.toNat = 256 * (s.byteAt s.pc.toNat).toNat + (s.byteAt (s.pc.toNat + 1)).toNat := by
  rw [State.wordAtPc, BitVec.toNat_append, ← Nat.shiftLeft_add_eq_or_of_lt (BitVec.isLt _), Nat.shiftLeft_eq,
    Nat.mul_comm]

/-- The end of a cycle, whether the core has halted or not: only a running core's timers count (spec/40_cycle.md R125,
R126). -/
theorem endCycle_eq (u : State) : u.endCycle = { u with
    dt := if u.halted then u.dt else decremented u.dt
    st := if u.halted then u.st else decremented u.st
    inCycle := none } := by
  by_cases h : u.halted = true
  · rw [endCycle_halted u h, if_pos h, if_pos h]
  · rw [endCycle_running u (Bool.eq_false_iff.2 h), if_neg h, if_neg h, tick_eq, tick_eq]

/-- A cycle that leaves the core running has completed Execute, which keeps what no instruction writes but the event. -/
theorem execute_of_cycle_completed (hc : s.HostCycle keys rnd s') (hh : s.halted = false) (h : step s = .next t)
    (ht : t.halted = false) :
    ∃ u, execWord s.wordAtPc (s'.atExecute keys rnd) = .next u ∧ u.halted = false ∧
      Keeps (s'.atExecute keys rnd) { u with out := .quiet } ∧ t = u.endCycle := by
  have hh' : s'.halted = false := by rw [(hostCycle_arch hc).1, hh]
  rw [step_of_hostCycle hc] at h
  rcases cycle_cases (keys := keys) (rnd := rnd) hh' with
    ⟨-, hcy⟩ | ⟨-, cause, -, hcy⟩ | ⟨-, u, hu, huh, hk, hcy⟩ <;> rw [hcy] at h <;> cases h
  · cases ht
  · cases ht
  · exact ⟨u, hostCycle_wordAtPc hc ▸ hu, huh, hk, (endCycle_running u huh).symm⟩

/-! ### What every operation does -/

/-- Every instruction answers a next state: a fatal fault is one, with `halted` set. -/
theorem exec_next (i : Instr) (s : State) : ∃ t, exec i s = .next t := by
  rcases exec_effect i s with ⟨cause, -, h⟩ | ⟨t, h, -⟩
  · exact ⟨_, h⟩
  · exact ⟨t, h⟩

/-- What no host operation touches: the script, FONT and the draw counter (notes/assumptions/1.md, 3.md, 4.md). -/
structure KeepsHost (s t : State) : Prop where
  pending : t.pending = s.pending
  font : t.font = s.font
  draws : t.draws = s.draws

theorem cycle_next_keepsHost (keys : Vector Bool 16) (rnd : Byte) (s : State) :
    ∃ t, cycle keys rnd s = .next t ∧ KeepsHost s t := by
  cases hh : s.halted with
  | true => exact ⟨_, cycle_halted hh, rfl, rfl, rfl⟩
  | false =>
    rcases cycle_cases (keys := keys) (rnd := rnd) hh with ⟨-, h⟩ | ⟨-, cause, -, h⟩ | ⟨-, u, -, -, hk, h⟩
    · exact ⟨_, h, rfl, rfl, rfl⟩
    · exact ⟨_, h, rfl, rfl, rfl⟩
    · exact ⟨_, h, hk.pending, hk.font, hk.draws⟩

/-- A load changes memory and the outputs only (spec/70_reset_and_hazards.md R343). -/
theorem performLoad_eq (s : State) (source : LoadSource) :
    s.performLoad source = { s with mem := (s.performLoad source).mem, out := (s.performLoad source).out } := by
  cases source with
  | unreadable => rfl
  | image bytes =>
    simp only [State.performLoad]
    split <;> rfl

/-- Every host operation answers a next state, and works on the core and the outputs only. -/
theorem perform_next_keepsHost (op : HostOp) (s : State) : ∃ t, perform op s = .next t ∧ KeepsHost s t := by
  cases op with
  | reset | setQuirk | read => exact ⟨_, rfl, rfl, rfl, rfl⟩
  | load source => exact ⟨_, congrArg Host.Outcome.next (performLoad_eq s source), rfl, rfl, rfl⟩
  | cycle keys rnd => exact cycle_next_keepsHost keys rnd s

/-- An operation other than a cycle or a reset leaves a halted core halted (spec/60_exceptions.md R304). -/
theorem perform_halted {op : HostOp} (hop : ∀ keys rnd, op ≠ .cycle keys rnd) (hr : op ≠ .reset)
    (h : perform op s = .next t) : t.halted = s.halted := by
  cases op with
  | reset => exact absurd rfl hr
  | cycle keys rnd => exact absurd rfl (hop keys rnd)
  | setQuirk | read =>
    cases h
    rfl
  | load source =>
    cases h
    exact congrArg (·.halted) (performLoad_eq s source)

/-! ### The random byte -/

/-- Two cycles that differ in the random byte alone start Execute in states that differ in the running cycle alone. -/
theorem atExecute_rnd (s : State) :
    s.atExecute keys rnd' = (s.atExecute keys rnd).withCycle (some ⟨s.toArch, rnd'⟩) := rfl

/-- Execute of a word other than CXNN comes to the same at the end of the cycle, whatever the random byte. -/
theorem endCycle_execWord_congr_rnd (hw : ∀ x nn, decode s.wordAtPc ≠ .instr (.rnd x nn)) :
    onNext State.endCycle (execWord s.wordAtPc (s.atExecute keys rnd)) =
      onNext State.endCycle (execWord s.wordAtPc (s.atExecute keys rnd')) := by
  have hagree := execWord_agreeButCycle (s := s.atExecute keys rnd) (c := some ⟨s.toArch, rnd'⟩) s.wordAtPc
    fun x nn h => absurd h (hw x nn)
  rw [← atExecute_rnd] at hagree
  rcases hagree with ⟨cause, h, h'⟩ | ⟨t, h, h'⟩ <;> rw [h, h']
  · rw [← atExecute_rnd, endCycle_raise, endCycle_raise]
  · rw [onNext, onNext, endCycle_withCycle]

theorem cycle_congr_rnd (hw : ∀ x nn, decode s.wordAtPc ≠ .instr (.rnd x nn)) :
    cycle keys rnd s = cycle keys rnd' s := by
  cases hh : s.halted with
  | true => rw [cycle_halted hh, cycle_halted hh]
  | false => rw [cycle_eq hh, cycle_eq hh, endCycle_execWord_congr_rnd hw]

/-! ### The obligations -/

/-- Settles O9: the next operation comes off the script, or a draw is counted, and performing it touches neither. -/
theorem stepTakesOneOperationOffTheScript : Obligations.StepTakesOneOperationOffTheScript := by
  unfold Obligations.StepTakesOneOperationOffTheScript
  intro s t h
  cases hp : s.pending with
  | nil =>
    obtain ⟨_, h', hk⟩ := perform_next_keepsHost (.cycle (Config.freeKeys s.draws) (Config.freeByte s.draws))
      { s with draws := s.draws + 1 }
    rw [step_of_empty hp, h'] at h
    cases h
    exact ⟨hk.pending.trans hp, hk.font, hk.draws.trans (if_pos rfl).symm⟩
  | cons op rest =>
    obtain ⟨_, h', hk⟩ := perform_next_keepsHost op { s with pending := rest }
    rw [step_of_pending hp, h'] at h
    cases h
    exact ⟨hk.pending, hk.font, hk.draws.trans (if_neg (List.cons_ne_nil op rest)).symm⟩

/-- Settles O11: the two sides of the fetch bound, and the state Execute starts from. -/
theorem fetchFaultsOrAdvances : Obligations.FetchFaultsOrAdvances := by
  unfold Obligations.FetchFaultsOrAdvances
  intro s s' keys rnd hc hh
  rw [step_of_hostCycle_running hc hh]
  refine ⟨fun h => if_neg (Nat.not_lt.2 h), fun h => ⟨if_pos h, wordAtPc_toNat s, ?_, ?_⟩⟩
  · exact hostCycle_atExecute_opcode hc
  · exact hostCycle_atExecute_pc hc

/-- Settles O12: the snapshot is latched before Execute, and no instruction writes it. -/
theorem cycleLatchesTheKeys : Obligations.CycleLatchesTheKeys := by
  unfold Obligations.CycleLatchesTheKeys
  intro s s' t keys rnd hc hh h ht
  obtain ⟨u, hu, -, hk, rfl⟩ := execute_of_cycle_completed hc hh h ht
  exact ⟨⟨u, hu, rfl⟩, rfl, (State.endCycle_keypad u).trans hk.keypad⟩

/-- Settles O13: a cycle only clears a halted core's outputs, and of the other operations only reset clears `halted`. -/
theorem haltedCoreIgnoresCycles : Obligations.HaltedCoreIgnoresCycles := by
  unfold Obligations.HaltedCoreIgnoresCycles
  intro s t hh h
  have hcycle : ∀ keys rnd s', s.HostCycle keys rnd s' → t = { s' with out := .quiet } ∧ t.toArch = s.toArch := by
    intro keys rnd s' hc
    have ha := (hostCycle_arch hc).1
    rw [step_of_hostCycle hc, cycle_halted (by rw [ha, hh])] at h
    cases h
    exact ⟨rfl, ha⟩
  constructor
  · intro keys rnd s' hc
    obtain ⟨ht, ha⟩ := hcycle keys rnd s' hc
    exact ⟨ht, by rw [State.status, ha, if_pos hh]⟩
  · intro ht
    rcases step_cases s with ⟨keys, rnd, s', hc⟩ | ⟨op, rest, hp, hop⟩
    · rw [(hcycle keys rnd s' hc).2, hh] at ht
      cases ht
    · by_cases hr : op = .reset
      · exact ⟨rest, hr ▸ hp⟩
      · rw [step_of_pending hp] at h
        rw [perform_halted hop hr h, hh] at ht
        cases ht

/-- Settles O14: a cycle that completes ends with the decrement of both timers. -/
theorem timersCountCompletedCycles : Obligations.TimersCountCompletedCycles := by
  unfold Obligations.TimersCountCompletedCycles
  intro s s' t keys rnd hc hh h ht
  obtain ⟨u, hu, huh, -, rfl⟩ := execute_of_cycle_completed hc hh h ht
  exact ⟨u, hu, endCycle_running u huh⟩

/-- Settles O23: an instruction faults into a next state or completes, and so does every host operation. -/
theorem nothingStopsTheMachine : Obligations.NothingStopsTheMachine := by
  unfold Obligations.NothingStopsTheMachine
  refine ⟨exec_next, fun s => ?_⟩
  obtain ⟨t, h, -⟩ := perform_next_keepsHost s.nextOp.1 s.nextOp.2
  exact ⟨t, h⟩

/-- Settles O29: no instruction but CXNN reads the random byte, and a fault drops it with the running cycle. -/
theorem onlyRandomInstructionReadsTheRandomByte : Obligations.OnlyRandomInstructionReadsTheRandomByte := by
  unfold Obligations.OnlyRandomInstructionReadsTheRandomByte
  intro s keys rnd rnd' rest hw
  rw [step_of_pending (op := .cycle keys rnd) rfl, step_of_pending (op := .cycle keys rnd') rfl]
  exact cycle_congr_rnd (s := { s with pending := rest }) hw

/-- Settles O8: the two ways the host's next operation is found. -/
theorem stepPerformsTheNextHostOperation : Obligations.StepPerformsTheNextHostOperation := by
  unfold Obligations.StepPerformsTheNextHostOperation
  exact fun _ => ⟨fun _ _ => step_of_pending, step_of_empty⟩

/-- Settles O10: the fetch succeeds, so the cycle is Execute and then its end, with or without the timers. -/
theorem stepRunsTheDecodedInstruction : Obligations.StepRunsTheDecodedInstruction := by
  unfold Obligations.StepRunsTheDecodedInstruction
  intro s s' u keys rnd i hc hh hpc hd hu
  have hw : execWord s.wordAtPc (s'.atExecute keys rnd) = .next u := by rw [execWord, hd, ← hu]
  rw [step_of_hostCycle_running hc hh, if_pos (Nat.lt_succ_of_le hpc), hw, onNext, endCycle_eq]

/-- Settles O16: neither operation is a cycle, and each is one update of the state. -/
theorem setQuirkWritesQuirkOnlyAndReadNothing : Obligations.SetQuirkWritesQuirkOnlyAndReadNothing := by
  unfold Obligations.SetQuirkWritesQuirkOnlyAndReadNothing
  exact fun _ _ _ => ⟨step_of_pending, step_of_pending⟩

end Sys2Proof.Machine
end

section
/-! Control flow (spec/41_flow.md): what 00EE, 2NNN and the skips answer as whole next states, and the words that decode to
a row, given by the row's fields. -/

namespace Sys2Proof.Machine

variable {s : State} {w : Word} {op n : BitVec 4}

/-! ### The mask conditions of a row, by the fields of the word (spec/30_encoding.md R91, R94) -/

theorem and_F000_of_op (h : w.extractLsb' 12 4 = op) : w &&& 0xF000 = op ++ 0#12 := by
  rw [and_F000, h]

theorem and_F00F_of_op_nibble (h : w.extractLsb' 12 4 = op) (hn : w.extractLsb' 0 4 = n) :
    w &&& 0xF00F = op ++ 0#8 ++ n := by
  rw [and_F00F, h, hn]

theorem div_4096_of_op (h : w.extractLsb' 12 4 = op) : w.toNat / 4096 = op.toNat := by
  rw [← toNat_op, h]

theorem mod_16_ne_zero_of_nibble (hn : w.extractLsb' 0 4 ≠ 0) : w.toNat % 16 ≠ 0 := by
  simpa [← BitVec.toNat_inj, BitVec.extractLsb'_toNat] using hn

/-- The first nibbles 5 and 9 have one row each, of last nibble 0; every other last nibble is unknown (R97). -/
theorem decode_unknown_of_nibble_ne_zero (h : op = 5 ∨ op = 9) (hop : w.extractLsb' 12 4 = op)
    (hn : w.extractLsb' 0 4 ≠ 0) : decode w = .unknown w := by
  rw [decode_eq_unknown_iff, misses_opcodeMap_iff]
  have hmod := mod_16_ne_zero_of_nibble hn
  have hdiv := div_4096_of_op hop
  rcases h with rfl | rfl
  · exact .inr (.inl ⟨hdiv, hmod⟩)
  · exact .inr (.inr (.inr (.inl ⟨hdiv, hmod⟩)))

/-! ### Call and return -/

theorem exec_call_of_lt (nnn : Addr) (k : Fin 16) (h : s.sp.val = k.val) :
    exec (.call nnn) s =
      .next { s with stack := s.stack.set k s.pc, sp := k.succ, pc := BitVec.ofNat 16 nnn.toNat } := by
  simp only [exec, execCall, push_of_lt k h, State.setPc, zext16_eq]

theorem exec_call_full (nnn : Addr) (h : s.sp.val = 16) : exec (.call nnn) s = s.raise .stackOverflow := by
  simp only [exec, execCall, push_full h]

theorem exec_ret_of_pos (k : Fin 16) (h : s.sp.val = k.val + 1) :
    exec .ret s = .next { s with sp := k.castSucc, pc := s.stack[k] } := by
  simp only [exec, execRet, pop_of_pos k h, State.setPc]

theorem exec_ret_empty (h : s.sp.val = 0) : exec .ret s = s.raise .stackUnderflow := by
  simp only [exec, execRet, pop_empty h]

/-! ### Skips (spec/41_flow.md R159) -/

theorem skipIf_beq (s : State) (a b : Byte) :
    s.skipIf (a == b) = { s with pc := if a = b then s.pc + 2 else s.pc } := by
  simp [skipIf_eq]

theorem skipIf_bne (s : State) (a b : Byte) :
    s.skipIf (a != b) = { s with pc := if a = b then s.pc else s.pc + 2 } := by
  simp [skipIf_eq]

/-! ### The obligations -/

/-- Settles O36: the call pushes at SP, so the return finds SP one above that entry, and pops the PC pushed there. -/
theorem returnUndoesCall : Obligations.ReturnUndoesCall := by
  unfold Obligations.ReturnUndoesCall
  intro nnn s h
  let k : Fin 16 := ⟨s.sp.val, h⟩
  refine ⟨_, _, exec_call_of_lt nnn k rfl, exec_ret_of_pos k rfl, ?_, fun j => ?_⟩
  · have hpc : (s.stack.set k s.pc)[k] = s.pc := Vector.getElem_set_self _
    rw [hpc]
    rfl
  · simp only [Fin.getElem_fin, Vector.getElem_set, eq_comm (a := j.val)]
    rfl

/-- Settles O33: a pop of a stack that holds an entry, and the fault of an empty one. -/
theorem returnPopsTheStack : Obligations.ReturnPopsTheStack := by
  unfold Obligations.ReturnPopsTheStack
  refine ⟨decode_row 1 rfl, fun s k h => exec_ret_of_pos k h, fun s c h hc => ?_⟩
  rw [exec_ret_empty (congrArg Fin.val h), raise_in_cycle hc]

/-- Settles O34: a byte plus a 12-bit address fits 16 bits, so the sum of BNNN is exact. -/
theorem jumpsGoToTheirTarget : Obligations.JumpsGoToTheirTarget := by
  unfold Obligations.JumpsGoToTheirTarget
  refine ⟨fun w => ⟨fun h => decode_row 2 (and_F000_of_op h), fun h => decode_row 5 (and_F000_of_op h)⟩,
    fun nnn s => ⟨?_, ?_, ?_⟩⟩
  · simp only [exec, execJp, State.setPc, zext16_eq]
  · simp only [exec, execJpV0, State.setPc, offsetTarget_eq]
  · have hv := s.v[0].isLt
    have hn := nnn.isLt
    omega

/-- Settles O35: a push onto a stack with room, and the fault of a full one. -/
theorem callPushesAndJumps : Obligations.CallPushesAndJumps := by
  unfold Obligations.CallPushesAndJumps
  refine ⟨fun w h => decode_row 3 (and_F000_of_op h), fun nnn s k h => exec_call_of_lt nnn k h,
    fun nnn s c h hc => ?_⟩
  rw [exec_call_full nnn h, raise_in_cycle hc]

/-- Settles O37: the two skips branch on one comparison, with the outcomes exchanged. -/
theorem immediateSkips : Obligations.ImmediateSkips := by
  unfold Obligations.ImmediateSkips
  exact ⟨fun w => ⟨fun h => decode_row 6 (and_F000_of_op h), fun h => decode_row 7 (and_F000_of_op h)⟩,
    fun x nn s => ⟨congrArg _ (skipIf_beq s s.v[x] nn), congrArg _ (skipIf_bne s s.v[x] nn)⟩⟩

/-- Settles O38: last nibble 0 selects the row of 5XY0 or 9XY0, any other last nibble no row at all. -/
theorem registerSkips : Obligations.RegisterSkips := by
  unfold Obligations.RegisterSkips
  refine ⟨fun w => ⟨fun h => ?_, fun h => ?_⟩,
    fun x y s => ⟨congrArg _ (skipIf_beq s s.v[x] s.v[y]), congrArg _ (skipIf_bne s s.v[x] s.v[y])⟩⟩
  · split_ifs with hn
    · exact decode_row 12 (and_F00F_of_op_nibble h hn)
    · exact decode_unknown_of_nibble_ne_zero (.inl rfl) h hn
  · split_ifs with hn
    · exact decode_row 22 (and_F00F_of_op_nibble h hn)
    · exact decode_unknown_of_nibble_ne_zero (.inr rfl) h hn

end Sys2Proof.Machine
end

section
/-! Register loads, arithmetic, logic, shifts, random (spec/42_alu.md). Every instruction here ends in one of two shapes, a
write of V[X] or a write of V[X] followed by the flag; what is left is arithmetic on bytes. -/

namespace Sys2Proof.Machine

variable (s : State) (x : Reg) (a b src : Byte) (c : Bool)

/-! ### Byte arithmetic as numbers (spec/42_alu.md R180, R192, R194) -/

theorem byte_add_eq : a + b = BitVec.ofNat 8 ((a.toNat + b.toNat) % 256) :=
  BitVec.eq_of_toNat_eq (by simp)

theorem byte_sub_eq : a - b = BitVec.ofNat 8 ((256 + a.toNat - b.toNat) % 256) :=
  BitVec.eq_of_toNat_eq (by rw [BitVec.toNat_sub, BitVec.toNat_ofNat]; omega)

theorem byte_shiftRight_one_eq : src >>> 1 = BitVec.ofNat 8 (src.toNat / 2) :=
  BitVec.eq_of_toNat_eq (by
    rw [BitVec.toNat_ushiftRight, Nat.shiftRight_eq_div_pow, BitVec.toNat_ofNat]
    omega)

theorem byte_shiftLeft_one_eq : src <<< 1 = BitVec.ofNat 8 (src.toNat * 2 % 256) :=
  BitVec.eq_of_toNat_eq (by simp [Nat.shiftLeft_eq])

/-! ### The flag as a byte (spec/42_alu.md R187, R188, R192, R194) -/

theorem flag_carryOut : (if carryOut a b then 1 else 0 : Byte) = if a.toNat + b.toNat > 255 then 1 else 0 := by
  simp only [carryOut, decide_eq_true_eq]

theorem flag_noBorrow : (if noBorrow a b then 1 else 0 : Byte) = if a.toNat ≥ b.toNat then 1 else 0 := by
  simp only [noBorrow, decide_eq_true_eq]

/-- A bit of a byte as a byte, by division. -/
theorem ite_getLsbD_eq (k : Nat) :
    (if src.getLsbD k then 1 else 0 : Byte) = BitVec.ofNat 8 (src.toNat / 2 ^ k % 2) := by
  rw [BitVec.getLsbD, Nat.testBit_eq_decide_div_mod_eq]
  rcases Nat.mod_two_eq_zero_or_one (src.toNat / 2 ^ k) with h | h <;> simp [h]

theorem flag_shiftedOutRight : (if shiftedOutRight src then 1 else 0 : Byte) = BitVec.ofNat 8 (src.toNat % 2) := by
  simpa [shiftedOutRight] using ite_getLsbD_eq src 0

/-- Bit 7 is the quotient by 128: a byte is below 256, so there is nothing above it. -/
theorem flag_shiftedOutLeft : (if shiftedOutLeft src then 1 else 0 : Byte) = BitVec.ofNat 8 (src.toNat / 128) := by
  have hlt : src.toNat / 128 < 2 := by have := src.isLt; omega
  simpa [shiftedOutLeft, Nat.mod_eq_of_lt hlt] using ite_getLsbD_eq src 7

/-! ### The next state of a meaning that writes V[X], and of one that then writes the flag (R23, R191) -/

theorem setReg_eq : s.setReg x b = { s with v := s.v.set x b } := rfl

theorem setFlag_setReg_eq :
    (s.setReg x b).setFlag c = { s with v := (s.v.set x b).set 15 (if c then 1 else 0) } := rfl

theorem drawByte_in_cycle {s : State} {ctx : CycleContext} (h : s.inCycle = some ctx) : s.drawByte = ctx.rnd := by
  rw [State.drawByte, h]

/-! ### The obligations -/

/-- Settles O42: the carry is that of the operands read first, whichever of X and Y is F. -/
theorem addSetsCarry : Obligations.AddSetsCarry := by
  unfold Obligations.AddSetsCarry
  refine ⟨fun w h hn => decode_row 17 (and_F00F_of_op_nibble h hn), fun x y s => ?_⟩
  simp only [exec, execAddReg, setFlag_setReg_eq, flag_carryOut, byte_add_eq, reg_eq]

/-- Settles O43: 8XY7 is 8XY5 with the operands exchanged. -/
theorem subtractionsSetNoBorrow : Obligations.SubtractionsSetNoBorrow := by
  unfold Obligations.SubtractionsSetNoBorrow
  refine ⟨fun w h => ⟨fun hn => decode_row 18 (and_F00F_of_op_nibble h hn),
    fun hn => decode_row 20 (and_F00F_of_op_nibble h hn)⟩, fun x y s => ⟨?_, ?_⟩⟩
  · simp only [exec, execSubReg, setFlag_setReg_eq, flag_noBorrow, byte_sub_eq, reg_eq]
  · simp only [exec, execSubnReg, setFlag_setReg_eq, flag_noBorrow, byte_sub_eq, reg_eq]

/-- Settles O44: both shifts read the one source that QUIRK selects, for the result and for the flag. -/
theorem shiftsSetTheBitShiftedOut : Obligations.ShiftsSetTheBitShiftedOut := by
  unfold Obligations.ShiftsSetTheBitShiftedOut
  refine ⟨fun w h => ⟨fun hn => decode_row 19 (and_F00F_of_op_nibble h hn),
    fun hn => decode_row 21 (and_F00F_of_op_nibble h hn)⟩, fun x y s src hsrc => ?_⟩
  have hsource : s.shiftSource x y = src := hsrc.symm
  constructor
  · simp only [exec, execShr, hsource, setFlag_setReg_eq, flag_shiftedOutRight, byte_shiftRight_one_eq]
  · simp only [exec, execShl, hsource, setFlag_setReg_eq, flag_shiftedOutLeft, byte_shiftLeft_one_eq]

/-- Settles O39: both are one register write of the operand as it stands. -/
theorem registerLoads : Obligations.RegisterLoads := by
  unfold Obligations.RegisterLoads
  refine ⟨fun w => ⟨fun h => decode_row 8 (and_F000_of_op h),
    fun h hn => decode_row 13 (and_F00F_of_op_nibble h hn)⟩, fun x y nn s => ⟨?_, ?_⟩⟩
  · simp only [exec, execLdImm, setReg_eq]
  · simp only [exec, execLdReg, setReg_eq, reg_eq]

/-- Settles O40: one register write of the wrapped sum, and no write of the flag. -/
theorem addImmediateWraps : Obligations.AddImmediateWraps := by
  unfold Obligations.AddImmediateWraps
  refine ⟨fun w h => decode_row 9 (and_F000_of_op h), fun x nn s => ?_⟩
  simp only [exec, execAddImm, setReg_eq, byte_add_eq, reg_eq]

/-- Settles O41: three rows of the table, each one register write. -/
theorem bitwiseOperations : Obligations.BitwiseOperations := by
  unfold Obligations.BitwiseOperations
  refine ⟨fun w h => ⟨fun hn => decode_row 14 (and_F00F_of_op_nibble h hn),
    fun hn => decode_row 15 (and_F00F_of_op_nibble h hn), fun hn => decode_row 16 (and_F00F_of_op_nibble h hn)⟩,
    fun x y s => ⟨?_, ?_, ?_⟩⟩
  · simp only [exec, execOrReg, setReg_eq, reg_eq]
  · simp only [exec, execAndReg, setReg_eq, reg_eq]
  · simp only [exec, execXorReg, setReg_eq, reg_eq]

/-- Settles O45: the byte drawn in a running cycle is the one the cycle's context holds. -/
theorem randomByteIsMasked : Obligations.RandomByteIsMasked := by
  unfold Obligations.RandomByteIsMasked
  refine ⟨fun w h => decode_row 10 (and_F000_of_op h), fun x nn s start rnd h => ?_⟩
  simp only [exec, execRnd, setReg_eq, drawByte_in_cycle h]

end Sys2Proof.Machine
end

section
/-! Index register and memory instructions (spec/43_memory_ops.md). FX33 and FX55 are one run of writes from I and FX65
is one run of reads, so each either takes place whole, with its last address below 0x1000, or raises ADDRESS_FAULT. -/

namespace Sys2Proof.Machine

variable {s : State} {w : Word} {op : BitVec 4} {sub8 : Byte} {x : Reg} {a b j n : Nat} {bs : List Byte}

/-- The mask condition of a row of the format Xs, by the fields of the word (spec/30_encoding.md R91, R94). -/
theorem and_F0FF_of_op_byte (h : w.extractLsb' 12 4 = op) (hsub : w.extractLsb' 0 8 = sub8) :
    w &&& 0xF0FF = op ++ 0#4 ++ sub8 := by
  rw [and_F0FF, h, hsub]

/-! ### Runs of writes and of reads, in range and outside memory (spec/20_memory.md R64, R65) -/

theorem memWrites_of_fits (h : a + bs.length ≤ 4096) :
    s.memWrites a bs = some (s.setMem (Memory.copyIn s.font s.mem a bs)) := by
  rw [memWrites_eq, if_pos (.inr h)]

theorem memWrites_outside (hne : bs ≠ []) (h : 4096 < a + bs.length) : s.memWrites a bs = none := by
  rw [memWrites_eq, if_neg (not_or.2 ⟨hne, Nat.not_le.2 h⟩)]

theorem memReads_of_fits (h : a + n ≤ 4096) : s.memReads a n = some ((List.range' a n).map s.byteAt) := by
  rw [memReads_eq, if_pos (.inr h)]

theorem memReads_outside (hne : n ≠ 0) (h : 4096 < a + n) : s.memReads a n = none := by
  rw [memReads_eq, if_neg (not_or.2 ⟨hne, Nat.not_le.2 h⟩)]

/-- A run of writes leaves its bytes at their addresses. -/
theorem byteAt_copyIn_at (hwf : Memory.wf s.font s.mem = true) (hfit : a + bs.length ≤ 4096) (hj : j < bs.length) :
    (s.setMem (Memory.copyIn s.font s.mem a bs)).byteAt (a + j) = bs[j] := by
  have hread := Memory.read_copyIn (b := a + j) bs hwf hfit
  rwa [if_pos (by omega), Nat.add_sub_cancel_left, List.getD_eq_getElem _ _ hj] at hread

/-- A run of writes leaves every other byte as it was. -/
theorem byteAt_copyIn_outside (hwf : Memory.wf s.font s.mem = true) (hfit : a + bs.length ≤ 4096)
    (hb : b < a ∨ a + bs.length ≤ b) : (s.setMem (Memory.copyIn s.font s.mem a bs)).byteAt b = s.byteAt b :=
  (Memory.read_copyIn bs hwf hfit).trans (if_neg (by omega))

/-! ### FX33 (spec/43_memory_ops.md R223) -/

theorem exec_ldBcd (hfit : s.i.toNat + 2 < 4096) :
    exec (.ldBcd x) s = .next (s.setMem (Memory.copyIn s.font s.mem s.i.toNat (bcdDigits s.v[x]))) := by
  have hw : s.memWrites s.base (bcdDigits (s.reg x)) = _ := memWrites_of_fits hfit
  simp only [exec, execLdBcd, hw]
  rfl

theorem exec_ldBcd_outside (h : 4096 ≤ s.i.toNat + 2) : exec (.ldBcd x) s = s.raise .addressFault := by
  have hw : s.memWrites s.base (bcdDigits (s.reg x)) = none :=
    memWrites_outside (List.cons_ne_nil _ _) (Nat.lt_succ_of_le h)
  simp only [exec, execLdBcd, hw]

/-! ### FX55 outside memory (spec/43_memory_ops.md R224) -/

theorem exec_storeRegs_outside (h : 4096 ≤ s.i.toNat + x.val) : exec (.storeRegs x) s = s.raise .addressFault := by
  have hlen : 4096 < s.i.toNat + (s.regsUpTo x).length := by
    rw [regsUpTo_length]
    exact Nat.lt_succ_of_le h
  have hw : s.memWrites s.base (s.regsUpTo x) = none :=
    memWrites_outside (List.ne_nil_of_length_eq_add_one (regsUpTo_length s x)) hlen
  simp only [exec, execStoreRegs, hw]

/-! ### FX65 (spec/43_memory_ops.md R225) -/

/-- The bytes FX65 loads. -/
def State.bytesFromIndex (s : State) (x : Reg) : List Byte := (List.range' s.i.toNat (x.val + 1)).map s.byteAt

theorem exec_loadRegs (hfit : s.i.toNat + x.val < 4096) :
    exec (.loadRegs x) s = .next (s.setRegs 0 (s.bytesFromIndex x)) := by
  have hr : s.memReads s.base (x.val + 1) = some (s.bytesFromIndex x) := memReads_of_fits hfit
  simp only [exec, execLoadRegs, hr]

theorem exec_loadRegs_outside (h : 4096 ≤ s.i.toNat + x.val) : exec (.loadRegs x) s = s.raise .addressFault := by
  have hr : s.memReads s.base (x.val + 1) = none :=
    memReads_outside (Nat.succ_ne_zero _) (Nat.lt_succ_of_le h)
  simp only [exec, execLoadRegs, hr]

/-- Every register after FX65: V0..VX take the bytes from I on, and the others stay. -/
theorem loaded_register (s : State) (x k : Reg) :
    (s.setRegs 0 (s.bytesFromIndex x)).v[k] = if k ≤ x then s.byteAt (s.i.toNat + k.val) else s.v[k] := by
  have hlen : (s.bytesFromIndex x).length = x.val + 1 := by simp [State.bytesFromIndex]
  rw [setRegs_v, hlen]
  by_cases hk : k ≤ x
  · have hlt : k.val < x.val + 1 := Nat.lt_succ_of_le hk
    rw [if_pos hk, if_pos (by omega), List.getD_eq_getElem _ _ (by omega)]
    simp [State.bytesFromIndex]
  · have hge : ¬ k.val < x.val + 1 := fun h => hk (Nat.le_of_lt_succ h)
    rw [if_neg hk, if_neg (by omega)]

/-- FX65 changes nothing where memory from I on already holds V0..VX. -/
theorem exec_loadRegs_eq_self (hfit : s.i.toNat + x.val < 4096)
    (h : ∀ k : Reg, k ≤ x → s.byteAt (s.i.toNat + k.val) = s.v[k]) : exec (.loadRegs x) s = .next s := by
  have hv : (s.setRegs 0 (s.bytesFromIndex x)).v = s.v := by
    refine Vector.ext fun j hj => (loaded_register s x ⟨j, hj⟩).trans ?_
    split_ifs with hk
    · exact h ⟨j, hj⟩ hk
    · rfl
  rw [exec_loadRegs hfit, setRegs_eq, hv]

/-! ### The obligations -/

/-- Settles O47: the two sides of the one condition on the exact sum. -/
theorem addToIndexOrOverflow : Obligations.AddToIndexOrOverflow := by
  unfold Obligations.AddToIndexOrOverflow
  refine ⟨fun w h hsub => decode_row 29 (and_F0FF_of_op_byte h hsub), fun x s hfit => ?_, fun x s c hover hc => ?_⟩
  · exact execAddI_fits (Nat.not_lt.2 hfit)
  · exact (execAddI_overflow hover).trans (raise_in_cycle hc _)

/-- Settles O48: the three digits are copied in at I, so those addresses hold them and no other byte differs. -/
theorem bcdStoresThreeDigits : Obligations.BcdStoresThreeDigits := by
  unfold Obligations.BcdStoresThreeDigits
  refine ⟨fun w h hsub => decode_row 31 (and_F0FF_of_op_byte h hsub),
    fun x s hfit => ⟨_, exec_ldBcd hfit, rfl, fun hwf => ?_⟩, fun x s c h hc => ?_⟩
  · have hdigit : ∀ j (hj : j < 3), State.byteAt _ (s.i.toNat + j) = (bcdDigits s.v[x])[j] :=
      fun j hj => byteAt_copyIn_at hwf hfit hj
    exact ⟨hdigit 0 (by decide), hdigit 1 (by decide), hdigit 2 (by decide),
      fun a ha => byteAt_copyIn_outside hwf hfit ha⟩
  · rw [exec_ldBcd_outside h, raise_in_cycle hc]

/-- Settles O49: V0..VX are copied in at I, so those addresses hold them and no other byte differs. -/
theorem storeRegistersToMemory : Obligations.StoreRegistersToMemory := by
  unfold Obligations.StoreRegistersToMemory
  refine ⟨fun w h hsub => decode_row 32 (and_F0FF_of_op_byte h hsub),
    fun x s hfit => ⟨_, exec_storeRegs hfit, rfl, fun hwf => ⟨fun k hk => ?_, fun a ha => ?_⟩⟩, fun x s c h hc => ?_⟩
  · exact byteAt_stored_register hwf hfit (exec_storeRegs hfit) hk
  · rw [byteAt_exec_storeRegs hwf hfit (exec_storeRegs hfit), if_neg (by omega)]
  · rw [exec_storeRegs_outside h, raise_in_cycle hc]

/-- Settles O50: the bytes from I on are written to the registers from V0 on, and to registers only. -/
theorem loadRegistersFromMemory : Obligations.LoadRegistersFromMemory := by
  unfold Obligations.LoadRegistersFromMemory
  refine ⟨fun w h hsub => decode_row 33 (and_F0FF_of_op_byte h hsub),
    fun x s hfit => ⟨_, exec_loadRegs hfit, setRegs_eq .., loaded_register s x⟩, fun x s c h hc => ?_⟩
  rw [exec_loadRegs_outside h, raise_in_cycle hc]

/-- Settles O51: after FX55 memory from I on holds V0..VX, which is where FX65 changes nothing. -/
theorem storeThenLoadRoundTrips : Obligations.StoreThenLoadRoundTrips := by
  unfold Obligations.StoreThenLoadRoundTrips
  intro x s hfit hwf
  refine ⟨_, exec_storeRegs hfit, exec_loadRegs_eq_self hfit fun k hk => ?_, rfl, rfl, rfl⟩
  exact byteAt_stored_register hwf hfit (exec_storeRegs hfit) hk

/-- Settles O46: both are one write of I, and the glyph address of the largest byte is 0x54B. -/
theorem indexLoads : Obligations.IndexLoads := by
  unfold Obligations.IndexLoads
  refine ⟨fun w => ⟨fun h => decode_row 4 (and_F000_of_op h),
    fun h hsub => decode_row 30 (and_F0FF_of_op_byte h hsub)⟩, fun nnn x s => ⟨?_, rfl, ?_⟩⟩
  · simp only [exec, execLdI, State.setIndex, zext16_eq]
  · have hv := s.v[x].isLt
    omega

end Sys2Proof.Machine
end

section
/-! Display (spec/44_display.md). A DXYN whose sprite bytes are in memory is one draw; `drawRows_eq` gives its pixels and
its collision, here in the terms of `State.SpriteCovers`. -/

namespace Sys2Proof.Machine

variable {s : State} {x y : Reg} {n : Fin 16} {px : Fin 64} {py : Fin 32}

/-! ### DXYN as one draw (R252) -/

/-- The bytes of the sprite at I. -/
def State.spriteBytes (s : State) (n : Fin 16) : List Byte := (List.range' s.i.toNat n.val).map s.byteAt

/-- The draw of the sprite at I at (V[X], V[Y]). -/
def State.spriteDrawing (s : State) (x y : Reg) (n : Fin 16) : Drawing :=
  drawRows s.v[x].toNat s.v[y].toNat (s.spriteBytes n) ⟨s.display, false⟩

/-- The state a DXYN leaves: the drawn display, and the collision in VF. -/
def State.afterDraw (s : State) (x y : Reg) (n : Fin 16) : State :=
  { s with
    v := s.v.set 15 (if (s.spriteDrawing x y n).collided then 1 else 0)
    display := (s.spriteDrawing x y n).display }

theorem spriteBytes_length (s : State) (n : Fin 16) : (s.spriteBytes n).length = n.val := by
  simp [State.spriteBytes]

/-- The 15 rows a sprite has at most are fewer than the display's, so no row of it comes back to another (R253). -/
theorem spriteBytes_length_le (s : State) (n : Fin 16) : (s.spriteBytes n).length ≤ 32 := by
  rw [spriteBytes_length]
  omega

theorem exec_drw (hfit : n.val = 0 ∨ s.i.toNat + n.val - 1 < 4096) :
    exec (.drw x y n) s = .next (s.afterDraw x y n) := by
  have hr : s.memReads s.base n.val = some (s.spriteBytes n) :=
    (memReads_eq s s.i.toNat n.val).trans (if_pos (by omega))
  simp only [exec, execDrw, hr]
  rfl

theorem exec_drw_outside (hn : 1 ≤ n.val) (h : 4096 ≤ s.i.toNat + n.val - 1) :
    exec (.drw x y n) s = s.raise .addressFault := by
  have hr : s.memReads s.base n.val = none :=
    memReads_outside (Nat.ne_of_gt hn) (show 4096 < s.i.toNat + n.val by omega)
  simp only [exec, execDrw, hr]

/-! ### The pixels and the collision of the draw (R253, R254, R255) -/

theorem spriteCovers_spriteBytes :
    spriteCovers s.v[x].toNat s.v[y].toNat (s.spriteBytes n) px py ↔ s.SpriteCovers x y n px py := by
  refine exists₂_congr fun row col => ?_
  simp only [State.spriteBytes, List.length_map, List.length_range', List.getElem_map, List.getElem_range', Nat.one_mul,
    exists_prop]

/-- A pixel is on after the draw iff it was on and not covered, or covered and not on. -/
theorem spriteDrawing_pixel_iff :
    (s.spriteDrawing x y n).display.pixel px py = true ↔
      (s.display.pixel px py = true ↔ ¬ s.SpriteCovers x y n px py) := by
  rw [← spriteCovers_spriteBytes]
  exact (drawRows_eq _ _ _ _ (spriteBytes_length_le s n)).1 px py

theorem spriteDrawing_collided_iff :
    (s.spriteDrawing x y n).collided = true ↔
      ∃ px py, s.display.pixel px py = true ∧ s.SpriteCovers x y n px py := by
  simp only [← spriteCovers_spriteBytes]
  exact (drawRows_eq _ _ _ _ (spriteBytes_length_le s n)).2.trans (by simp)

theorem afterDraw_pixel_of_covers (h : s.SpriteCovers x y n px py) :
    (s.afterDraw x y n).display.pixel px py = !s.display.pixel px py := by
  have hp : (s.afterDraw x y n).display.pixel px py = true ↔ _ := spriteDrawing_pixel_iff
  rw [Bool.eq_iff_iff, hp, Bool.not_eq_true', ← Bool.not_eq_true]
  tauto

theorem afterDraw_pixel_of_not_covers (h : ¬ s.SpriteCovers x y n px py) :
    (s.afterDraw x y n).display.pixel px py = s.display.pixel px py := by
  have hp : (s.afterDraw x y n).display.pixel px py = true ↔ _ := spriteDrawing_pixel_iff
  rw [Bool.eq_iff_iff, hp]
  tauto

/-! ### The second draw (notes/assumptions/11.md) -/

/-- A draw leaves the sprite and its place as they were, where X and Y are not VF. -/
theorem spriteCovers_afterDraw (hx : x ≠ 15) (hy : y ≠ 15) :
    (s.afterDraw x y n).SpriteCovers x y n px py ↔ s.SpriteCovers x y n px py := by
  have hv : ∀ r : Reg, r ≠ 15 → (s.afterDraw x y n).v[r] = s.v[r] := fun r hr =>
    (reg_setReg (s := s) 15 r _).trans (if_neg hr)
  rw [State.SpriteCovers, hv x hx, hv y hy]
  rfl

theorem afterDraw_flag_iff :
    (s.afterDraw x y n).v[15] = 1 ↔ ∃ px py, s.display.pixel px py = true ∧ s.SpriteCovers x y n px py := by
  rw [← spriteDrawing_collided_iff]
  cases h : (s.spriteDrawing x y n).collided <;> simp [State.afterDraw, h]

/-- Every pixel is inverted twice or not at all. -/
theorem afterDraw_afterDraw_display (hx : x ≠ 15) (hy : y ≠ 15) :
    ((s.afterDraw x y n).afterDraw x y n).display = s.display := by
  refine Display.ext_pixel fun px py => ?_
  by_cases h : s.SpriteCovers x y n px py
  · rw [afterDraw_pixel_of_covers ((spriteCovers_afterDraw hx hy).2 h), afterDraw_pixel_of_covers h, Bool.not_not]
  · rw [afterDraw_pixel_of_not_covers (mt (spriteCovers_afterDraw hx hy).1 h), afterDraw_pixel_of_not_covers h]

/-! ### The obligations -/

/-- Settles O54: the pixels are those of the one draw, and the two clauses on VF are its collision and none. -/
theorem drawInvertsThePixelsUnderTheSprite : Obligations.DrawInvertsThePixelsUnderTheSprite := by
  unfold Obligations.DrawInvertsThePixelsUnderTheSprite
  refine ⟨fun w h => decode_row 11 (and_F000_of_op h), fun x y n s hfit => ⟨_, exec_drw hfit, rfl, fun px py =>
    ⟨afterDraw_pixel_of_covers, afterDraw_pixel_of_not_covers⟩, fun hon => ?_, fun hoff => ?_⟩,
    fun x y n s c hn h hc => ?_⟩
  · have hcol : (s.spriteDrawing x y n).collided = true := spriteDrawing_collided_iff.2 hon
    simp only [State.afterDraw, hcol, if_true]
  · have hcol : ¬ (s.spriteDrawing x y n).collided = true := by
      rw [spriteDrawing_collided_iff]
      rintro ⟨px, py, hpx, hcov⟩
      exact hoff px py hpx hcov
    simp only [State.afterDraw, if_neg hcol]
  · rw [exec_drw_outside hn h, raise_in_cycle hc]

/-- Settles O55: both draws cover the same pixels, so the second finds a covered pixel on iff the first found it off. -/
theorem drawingTwiceRestoresTheDisplay : Obligations.DrawingTwiceRestoresTheDisplay := by
  unfold Obligations.DrawingTwiceRestoresTheDisplay
  intro x y n s hx hy hfit
  refine ⟨_, _, exec_drw hfit, exec_drw hfit, afterDraw_afterDraw_display hx hy, afterDraw_flag_iff.trans ?_⟩
  refine exists₂_congr fun px py => ?_
  rw [spriteCovers_afterDraw hx hy, and_comm]
  refine and_congr_right fun hcov => ?_
  rw [afterDraw_pixel_of_covers hcov, Bool.not_eq_true']
  rfl

/-- Settles O53: the display written is the blank one. -/
theorem clearTurnsEveryPixelOff : Obligations.ClearTurnsEveryPixelOff := by
  unfold Obligations.ClearTurnsEveryPixelOff
  exact ⟨decode_row 0 rfl, fun s => ⟨s.setDisplay Display.blank, rfl, rfl, Display.pixel_blank⟩⟩

end Sys2Proof.Machine
end

section
/-! Keypad and timers (spec/45_timers_keys.md): the key skips on both sides of the key bound, FX0A with a key and without
one, and the timer instructions, whose cycle decrements both timers after Execute. -/

namespace Sys2Proof.Machine

variable {s s' : State} {x : Reg} {k : Fin 16} {keys : Vector Bool 16} {rnd : Byte}

/-! ### EX9E and EXA1 (R270, R271) -/

theorem exec_skp_of_key (h : s.v[x].toNat = k.val) : exec (.skp x) s = .next (s.skipIf s.keypad[k]) := by
  simp only [exec, execSkp, reg_eq, key_of_eq k h]

theorem exec_sknp_of_key (h : s.v[x].toNat = k.val) : exec (.sknp x) s = .next (s.skipIf (!s.keypad[k])) := by
  simp only [exec, execSknp, reg_eq, key_of_eq k h]

theorem exec_skp_out_of_range (h : 15 < s.v[x].toNat) : exec (.skp x) s = s.raise .keyIndexFault := by
  simp only [exec, execSkp, reg_eq, key_out_of_range h]

theorem exec_sknp_out_of_range (h : 15 < s.v[x].toNat) : exec (.sknp x) s = s.raise .keyIndexFault := by
  simp only [exec, execSknp, reg_eq, key_out_of_range h]

/-- A skip on the opposite condition, with the branches exchanged. -/
theorem skipIf_not (s : State) (c : Bool) : s.skipIf (!c) = { s with pc := if c then s.pc else s.pc + 2 } := by
  cases c <;> rfl

/-! ### FX0A (R273) -/

theorem exec_ldKey_of_pressed (hk : s.keypad[k] = true) (hmin : ∀ j : Fin 16, j < k → s.keypad[j] = false) :
    exec (.ldKey x) s = .next (s.setReg x (BitVec.ofNat 8 k.val)) := by
  simp only [exec, execLdKey, lowestKey_eq_some hk hmin]

theorem exec_ldKey_of_none_pressed (h : ∀ k : Fin 16, s.keypad[k] = false) :
    exec (.ldKey x) s = .next (s.setPc (s.pc - 2)) := by
  simp only [exec, execLdKey, lowestKey_eq_none h]

/-- The rewind of FX0A undoes the fetch advance, so a waiting cycle keeps PC at the FX0A. -/
theorem step_waiting (hc : s.HostCycle keys rnd s') (hh : s.halted = false) (hpc : s.pc.toNat ≤ 0x0FFE)
    (hd : decode s.wordAtPc = .instr (.ldKey x)) (hkeys : ∀ k : Fin 16, keys[k] = false) :
    step s = .next { s' with
      keypad := keys, opcode := s.wordAtPc, dt := decremented s.dt, st := decremented s.st
      inCycle := none, out := .quiet } := by
  have ha := (hostCycle_arch hc).1
  have hrun : s'.halted = false := by rw [ha, hh]
  have hback : (s'.atExecute keys rnd).pc - 2 = s'.pc := BitVec.add_sub_cancel _ _
  have hexec : execWord s.wordAtPc (s'.atExecute keys rnd) = .next ((s'.atExecute keys rnd).setPc s'.pc) := by
    rw [execWord, hd, ← hback, ← exec_ldKey_of_none_pressed hkeys]
  rw [step_of_hostCycle_running hc hh, if_pos (Nat.lt_succ_of_le hpc), hexec, onNext,
    endCycle_running ((s'.atExecute keys rnd).setPc s'.pc) hrun, tick_eq, tick_eq, ← hostCycle_wordAtPc hc, ← ha]
  rfl

/-! ### Timers (R272, R274, R275) -/

theorem exec_ldVxDt (s : State) (x : Reg) : exec (.ldVxDt x) s = .next { s with v := s.v.set x s.dt } := rfl

theorem exec_ldDtVx (s : State) (x : Reg) : exec (.ldDtVx x) s = .next { s with dt := s.v[x] } := rfl

theorem exec_ldStVx (s : State) (x : Reg) : exec (.ldStVx x) s = .next { s with st := s.v[x] } := rfl

theorem endCycle_dt_of_running (h : s.halted = false) : s.endCycle.dt = decremented s.dt := by
  rw [State.endCycle_dt, if_neg (Bool.eq_false_iff.1 h), tick_eq]

theorem endCycle_st_of_running (h : s.halted = false) : s.endCycle.st = decremented s.st := by
  rw [State.endCycle_st, if_neg (Bool.eq_false_iff.1 h), tick_eq]

/-! ### The obligations -/

/-- Settles O57: the snapshot has a lowest pressed key or none, and a waiting cycle is the one with none. -/
theorem keyWaitTakesTheLowestKeyOrRewinds : Obligations.KeyWaitTakesTheLowestKeyOrRewinds := by
  unfold Obligations.KeyWaitTakesTheLowestKeyOrRewinds
  exact ⟨fun w h hsub => decode_row 26 (and_F0FF_of_op_byte h hsub),
    fun x s => ⟨fun k => exec_ldKey_of_pressed, exec_ldKey_of_none_pressed⟩,
    fun s s' keys rnd x => step_waiting⟩

/-- Settles O56: V[X] names one of the 16 keys, on which the two skips branch with the outcomes exchanged, or none. -/
theorem keySkips : Obligations.KeySkips := by
  unfold Obligations.KeySkips
  refine ⟨fun w h => ⟨fun hsub => decode_row 23 (and_F0FF_of_op_byte h hsub),
    fun hsub => decode_row 24 (and_F0FF_of_op_byte h hsub)⟩, fun x s k h => ⟨?_, ?_⟩, fun x s c h hc => ⟨?_, ?_⟩⟩
  · rw [exec_skp_of_key h, skipIf_eq]
  · rw [exec_sknp_of_key h, skipIf_not]
  · rw [exec_skp_out_of_range h, raise_in_cycle hc]
  · rw [exec_sknp_out_of_range h, raise_in_cycle hc]

/-- Settles O58: each instruction is one write, and the end of the cycle decrements what it left in the timers. -/
theorem timerInstructions : Obligations.TimerInstructions := by
  unfold Obligations.TimerInstructions
  refine ⟨fun w h => ⟨fun hsub => decode_row 25 (and_F0FF_of_op_byte h hsub),
    fun hsub => decode_row 27 (and_F0FF_of_op_byte h hsub), fun hsub => decode_row 28 (and_F0FF_of_op_byte h hsub)⟩,
    fun x s => ⟨exec_ldVxDt s x, exec_ldDtVx s x, exec_ldStVx s x, fun hh => ⟨?_, ?_, ?_⟩⟩⟩
  · exact endCycle_dt_of_running hh
  · exact endCycle_dt_of_running hh
  · exact endCycle_st_of_running hh

end Sys2Proof.Machine
end

section
/-! Fatal faults and the unknown variant (spec/60_exceptions.md). Each condition of R302 has two sides: on one its
instruction raises the fault, on the other it completes. A cycle that ends in a fault is S0 with the record. -/

namespace Sys2Proof.Machine

variable {s s' t : State} {keys : Vector Bool 16} {rnd : Byte} {r : Result} {cause : FaultCause}

/-! ### The condition of a fault decides between the fault and completion (R302) -/

/-- The outcome is the fault of this cause, or for no cause a next state that keeps what no instruction writes. -/
inductive FaultsAs (s : State) (r : Result) : FaultCause → Prop where
  | raises {cause : FaultCause} (hcause : cause ≠ .noFault) (hr : r = s.raise cause) : FaultsAs s r cause
  | completes {t : State} (hr : r = .next t) (hk : Keeps s t) : FaultsAs s r .noFault

theorem FaultsAs.eq_raise (h : FaultsAs s r cause) (hcause : cause ≠ .noFault) : r = s.raise cause := by
  cases h with
  | raises _ hr => exact hr
  | completes => exact absurd rfl hcause

theorem FaultsAs.next_of_noFault (h : FaultsAs s r .noFault) : ∃ t, r = .next t ∧ Keeps s t := by
  cases h with
  | raises hcause => exact absurd rfl hcause
  | completes hr hk => exact ⟨_, hr, hk⟩

/-- The two sides of one condition of R302. -/
theorem faultsAs_ite {p : Prop} [Decidable p] (hcause : cause ≠ .noFault) (hp : p → r = s.raise cause)
    (hn : ¬ p → ∃ t, r = .next t ∧ Keeps s t) : FaultsAs s r (if p then cause else .noFault) := by
  by_cases h : p
  · rw [if_pos h]
    exact .raises hcause (hp h)
  · obtain ⟨t, hr, hk⟩ := hn h
    rw [if_neg h]
    exact .completes hr hk

/-- The condition column of R302 decides every instruction: the fault where it holds, completion where it does not. -/
theorem exec_faultsAs (i : Instr) (s : State) : FaultsAs s (exec i s) (faultOf i s) := by
  cases i with
  | cls | jp | jpV0 | ldImm | addImm | ldReg | orReg | andReg | xorReg | addReg | subReg | shr | subnReg | shl | ldI
  | rnd | ldVxDt | ldDtVx | ldStVx | ldFont => exact .completes rfl (keeps_update ..)
  | seImm | sneImm | seReg | sneReg => exact .completes rfl (keeps_skipIf _)
  | ldKey x =>
    simp only [exec, execLdKey]
    split <;> exact .completes rfl (keeps_update ..)
  | ret =>
    refine faultsAs_ite (by decide) exec_ret_empty fun h => ?_
    exact ⟨_, exec_ret_of_pos ⟨s.sp.val - 1, by omega⟩ (Nat.succ_pred h).symm, keeps_update ..⟩
  | call nnn =>
    refine faultsAs_ite (by decide) (exec_call_full nnn) fun h => ?_
    exact ⟨_, exec_call_of_lt nnn ⟨s.sp.val, by omega⟩ rfl, keeps_update ..⟩
  | skp x =>
    refine faultsAs_ite (by decide) exec_skp_out_of_range fun h => ?_
    exact ⟨_, exec_skp_of_key (k := ⟨s.v[x].toNat, by omega⟩) rfl, keeps_skipIf _⟩
  | sknp x =>
    refine faultsAs_ite (by decide) exec_sknp_out_of_range fun h => ?_
    exact ⟨_, exec_sknp_of_key (k := ⟨s.v[x].toNat, by omega⟩) rfl, keeps_skipIf _⟩
  | addI x => exact faultsAs_ite (by decide) execAddI_overflow fun h => ⟨_, execAddI_fits h, keeps_update ..⟩
  | drw x y n =>
    refine faultsAs_ite (by decide) (fun h => exec_drw_outside h.1 h.2) fun h => ?_
    exact ⟨_, exec_drw (by omega), keeps_update ..⟩
  | ldBcd x =>
    refine faultsAs_ite (by decide) exec_ldBcd_outside fun h => ?_
    exact ⟨_, exec_ldBcd (Nat.not_le.1 h), keeps_memWrites (memWrites_of_fits (Nat.not_le.1 h))⟩
  | storeRegs x =>
    refine faultsAs_ite (by decide) exec_storeRegs_outside fun h => ?_
    have hfit : s.i.toNat + (s.regsUpTo x).length ≤ 4096 := by
      rw [regsUpTo_length]
      exact Nat.not_le.1 h
    exact ⟨_, exec_storeRegs (Nat.not_le.1 h), keeps_memWrites (memWrites_of_fits hfit)⟩
  | loadRegs x =>
    refine faultsAs_ite (by decide) exec_loadRegs_outside fun h => ?_
    exact ⟨_, exec_loadRegs (Nat.not_le.1 h), setRegs_eq s 0 _ ▸ keeps_update ..⟩

/-! ### The end of a cycle -/

/-- A cycle whose Execute completes ends with the decrement of both timers (spec/40_cycle.md R125). -/
theorem step_of_execute (hc : s.HostCycle keys rnd s') (hh : s.halted = false) (hpc : s.pc.toNat ≤ 0x0FFE)
    (hexec : execWord s.wordAtPc (s'.atExecute keys rnd) = .next t) (hrun : t.halted = false) :
    step s = .next { t with dt := decremented t.dt, st := decremented t.st, inCycle := none } := by
  rw [step_of_hostCycle_running hc hh, if_pos (Nat.lt_succ_of_le hpc), hexec, onNext, endCycle_running t hrun, tick_eq,
    tick_eq]

/-! ### The obligations -/

/-- Settles O22: the two faults a cycle can end in are S0 with the record, and a completed Execute does not halt. -/
theorem faultRollsTheCycleBack : Obligations.FaultRollsTheCycleBack := by
  unfold Obligations.FaultRollsTheCycleBack
  intro s s' t keys rnd hc hh h ht
  have ha := (hostCycle_arch hc).1
  have hrun : s'.halted = false := by rw [ha, hh]
  rw [step_of_hostCycle hc] at h
  rcases cycle_cases (keys := keys) (rnd := rnd) hrun with
    ⟨hpc, hcy⟩ | ⟨hpc, cause, hcause, hcy⟩ | ⟨-, u, -, hu, -, hcy⟩ <;> rw [hcy] at h <;> cases h
  · rw [ha] at hpc ⊢
    exact ⟨.addressFault, none, by decide, rfl, (if_pos hpc).symm, rfl⟩
  · rw [ha] at hpc
    rw [ha, hostCycle_wordAtPc hc]
    exact ⟨cause, some s.wordAtPc, hcause, rfl, (if_neg (Nat.not_le.2 hpc)).symm, rfl⟩
  · exact absurd (hu.symm.trans ht) Bool.false_ne_true

/-- Settles O21: `faultOf` decides what an instruction does, and a fetch outside memory is the fault without a word. -/
theorem faultsHaveTheListedConditions : Obligations.FaultsHaveTheListedConditions := by
  unfold Obligations.FaultsHaveTheListedConditions
  refine ⟨fun i s c hc => ⟨fun hf => ?_, fun hf => ?_⟩,
    fun s s' t keys rnd hc hh h => ⟨fun hpc => ?_, fun hpc ht => ?_⟩, rfl, rfl, rfl, rfl, rfl, rfl⟩
  · rw [(exec_faultsAs i s).eq_raise hf, raise_in_cycle hc]
  · obtain ⟨t, ht, hk⟩ := (hf ▸ exec_faultsAs i s).next_of_noFault
    exact ⟨t, ht, hk.halted, hk.faultCause, hk.faultPc, hk.faultWord⟩
  · rw [step_of_hostCycle_running hc hh, if_neg (by omega)] at h
    cases h
    exact ⟨rfl, rfl, rfl⟩
  · obtain ⟨cause, word, -, rfl, hword, -⟩ := faultRollsTheCycleBack s s' t keys rnd hc hh h ht
    exact hword.trans (if_neg (by omega))

/-- Settles O15: the unknown variant sets the event and nothing else, so the rest is the fetch and the timers. -/
theorem unknownWordIsSignalledAndSkipped : Obligations.UnknownWordIsSignalledAndSkipped := by
  unfold Obligations.UnknownWordIsSignalledAndSkipped
  intro s s' keys rnd hc hh hpc hd
  have ha := (hostCycle_arch hc).1
  have hrun : s'.halted = false := by rw [ha, hh]
  have hexec : execWord s.wordAtPc (s'.atExecute keys rnd) =
      .next { s'.atExecute keys rnd with out := ⟨some s.wordAtPc, none⟩ } := by
    rw [execWord, hd]
    rfl
  rw [step_of_execute hc hh hpc hexec hrun, ← hostCycle_wordAtPc hc, ← ha]
  rfl

end Sys2Proof.Machine
end

section
/-! Reset, load, boot and the timer hazard (spec/70_reset_and_hazards.md): the values of R40 as `Arch.afterReset` gives
them, what a load answers on both sides of the length bound, and the decrement that follows a timer write at once. -/

namespace Sys2Proof.Machine

variable {s s' u : State} {keys : Vector Bool 16} {rnd : Byte} {x : Reg} {image : List Byte} {font : Font} {a : Nat}

/-! ### The reset values (R340, R341; spec/10_state.md R36, R40) -/

theorem unlisted_fontBytes (font : Font) (k : Fin 80) : Memory.unlisted font (0x050 + k.val) = font[k] := by
  have hk := k.isLt
  simp only [Memory.unlisted, dif_pos (show 0x050 ≤ 0x050 + k.val ∧ 0x050 + k.val < 0x0A0 by omega),
    Nat.add_sub_cancel_left]
  rfl

theorem unlisted_otherBytes (h : a < 0x050 ∨ 0x0A0 ≤ a) : Memory.unlisted font a = 0 :=
  dif_neg (by omega)

/-- The memory of a core after reset lists nothing, so it reads as its reset content everywhere. -/
theorem byteAt_of_afterReset {q : Bool} (ha : s.toArch = Arch.afterReset q) (a : Nat) :
    s.byteAt a = Memory.unlisted s.font a := by
  rw [State.byteAt, ha]
  rfl

/-- A core as `Arch.afterReset` leaves it has the values of the table of R40. -/
theorem hasResetValues_of_afterReset {q : Bool} (ha : s.toArch = Arch.afterReset q) : s.HasResetValues q where
  v r := by simp [ha, Arch.afterReset]
  i := by rw [ha]; rfl
  pc := by rw [ha]; rfl
  sp := by rw [ha]; rfl
  stack k := by simp [ha, Arch.afterReset]
  dt := by rw [ha]; rfl
  st := by rw [ha]; rfl
  keypad k := by simp [ha, Arch.afterReset]
  display px py := by simp [ha, Arch.afterReset]
  opcode := by rw [ha]; rfl
  quirk_eq := by rw [ha]; rfl
  fontBytes k := (byteAt_of_afterReset ha _).trans (unlisted_fontBytes s.font k)
  otherBytes a _ h := (byteAt_of_afterReset ha a).trans (unlisted_otherBytes h)
  record := by rw [ha]; exact ⟨rfl, rfl, rfl, rfl⟩

/-! ### Load (R343, R344) -/

theorem performLoad_of_fits (h : image.length ≤ 3584) : s.performLoad (.image image) =
    { s with mem := Memory.copyIn s.font s.mem 0x200 image, out := ⟨none, some .loaded⟩ } :=
  if_pos ((imageFits_iff image).2 h)

theorem performLoad_oversize (h : 3584 < image.length) :
    s.performLoad (.image image) = { s with out := ⟨none, some .oversize⟩ } :=
  if_neg fun hfit => Nat.not_le.2 h ((imageFits_iff image).1 hfit)

/-! ### Timers (R349) -/

theorem decremented_toNat (b : Byte) : (decremented b).toNat = b.toNat - 1 := by
  have hb := b.isLt
  rw [decremented, BitVec.toNat_ofNat, Nat.mod_eq_of_lt (by omega)]

/-- A cycle whose instruction completes ends in that instruction's next state with both timers decremented. -/
theorem step_of_exec {i : Instr} (hc : s.HostCycle keys rnd s') (hh : s.halted = false) (hpc : s.pc.toNat ≤ 0x0FFE)
    (hd : decode s.wordAtPc = .instr i) (hexec : exec i (s'.atExecute keys rnd) = .next u) (hrun : u.halted = false) :
    step s = .next { u with dt := decremented u.dt, st := decremented u.st, inCycle := none } :=
  step_of_execute hc hh hpc (by rw [execWord, hd, ← hexec]) hrun

/-! ### The obligations -/

/-- Settles O17: an image of at most 3584 bytes fits below 0x1000, so the load is one run of writes from 0x200; any other
load writes only its result. -/
theorem loadWritesTheImageOrNothing : Obligations.LoadWritesTheImageOrNothing := by
  unfold Obligations.LoadWritesTheImageOrNothing
  refine fun s rest => ⟨fun image hp hlen => ?_, fun image hp hlen => ?_, step_of_pending⟩
  · have hfit : 0x200 + image.length ≤ 4096 := by omega
    refine ⟨_, (step_of_pending hp).trans (congrArg Host.Outcome.next (performLoad_of_fits hlen)), rfl, fun hwf => ?_⟩
    exact ⟨fun _ hk => byteAt_copyIn_at hwf hfit hk, fun _ ha => byteAt_copyIn_outside hwf hfit ha⟩
  · rw [step_of_pending hp]
    exact congrArg Host.Outcome.next (performLoad_oversize hlen)

/-- Settles O18: reset leaves the core as `Arch.afterReset` gives it, with the QUIRK it had. -/
theorem resetGivesTheResetValues : Obligations.ResetGivesTheResetValues := by
  unfold Obligations.ResetGivesTheResetValues
  exact fun _ _ hp => ⟨_, step_of_pending hp, hasResetValues_of_afterReset rfl, rfl⟩

/-- Settles O20: PC is 0x200 at power-on, where the load puts the first two bytes of the image. -/
theorem bootFetchesTheFirstWordOfTheImage : Obligations.BootFetchesTheFirstWordOfTheImage := by
  unfold Obligations.BootFetchesTheFirstWordOfTheImage
  intro font q hi lo image ops hlen
  obtain ⟨t, hstep, ht, hmem⟩ :=
    (loadWritesTheImageOrNothing { State.powerOn font q with pending := .load (.image (hi :: lo :: image)) :: ops } ops).1
      (hi :: lo :: image) rfl (by simp only [List.length_cons]; omega)
  have hpc : t.pc = 0x200 := by rw [ht]; rfl
  have hbytes := (hmem rfl).1
  have hhi : t.byteAt 0x200 = hi := hbytes 0 (by simp)
  have hlo : t.byteAt 0x201 = lo := hbytes 1 (by simp)
  refine ⟨t, hstep, by rw [ht], hpc, ?_⟩
  rw [fetchWord_eq, State.wordAtPc, hpc, if_pos (by decide)]
  exact congrArg some (congrArg₂ (· ++ ·) hhi hlo)

/-- Settles O59: the decrement at the cycle's end acts on the timer the instruction wrote, and FX07 has read DT before. -/
theorem timerWriteIsDecrementedInItsOwnCycle : Obligations.TimerWriteIsDecrementedInItsOwnCycle := by
  unfold Obligations.TimerWriteIsDecrementedInItsOwnCycle
  intro s s' t keys rnd x hc hh hpc h
  have ha := (hostCycle_arch hc).1
  have hrun : s'.halted = false := by rw [ha, hh]
  refine ⟨fun hd => ?_, fun hd => ?_, fun hd => ?_⟩
  · rw [step_of_exec hc hh hpc hd (exec_ldDtVx _ x) hrun] at h
    cases h
    rw [← ha]
    exact decremented_toNat _
  · rw [step_of_exec hc hh hpc hd (exec_ldStVx _ x) hrun] at h
    cases h
    rw [← ha]
    exact decremented_toNat _
  · rw [step_of_exec hc hh hpc hd (exec_ldVxDt _ x) hrun] at h
    cases h
    rw [← ha]
    exact ⟨Vector.getElem_set_self _, decremented_toNat _⟩

/-- Settles O19: power-on is the state after reset with QUIRK = SHIFT_QUIRK_INIT. -/
theorem powerOnGivesTheResetValues : Obligations.PowerOnGivesTheResetValues := by
  unfold Obligations.PowerOnGivesTheResetValues
  exact fun _ _ => ⟨hasResetValues_of_afterReset rfl, rfl⟩

end Sys2Proof.Machine
end
